-- ==== Sys2Proof/Word.lean ====
section
/-!
DEFINITION. The widths SPN-CORE works with (00_scope.md R5, R13): every value is an unsigned integer of a fixed
width, bit `i` of weight `2^i`, bit 0 the least significant.
-/

namespace Sys2Proof

/-- A 4-bit S-box input or output (R5 `NIB_W`). -/
abbrev Nibble := BitVec 4

/-- An 8-bit candidate or index field (R5 `NCAND`, R71 field `A`). -/
abbrev Byte := BitVec 8

/-- A 16-bit block, subkey, counter or control register (R5 `BLOCK_W`, `ITER_W`, `CNT_W`). -/
abbrev Word := BitVec 16

/-- A 32-bit command or response word (R5 `CMD_W`). -/
abbrev CmdWord := BitVec 32

end Sys2Proof
end

