-- ==== Sys2Proof/Config.lean ====
section
/-!
DEFINITION. What one build of the block fixes (00_scope.md R6, R8; 10_state.md R39): the two tables and `DIAG_EN`; and
the free values, constants with no body about which nothing can be proved.
-/

namespace Sys2Proof

/-- The configuration of a block: not state, fixed when the block is built (R6, R39). -/
structure Config where
  /-- `SBOX`, 16 entries of 4 bits (R51). -/
  sbox : Vector Nibble 16
  /-- `PERM`, entry `i` the destination index of source bit `i` (R53). -/
  perm : Vector (Fin 16) 16
  /-- `DIAG_EN` (R8). -/
  diagEn : Bool
  deriving DecidableEq, Repr

/-- The value the RNG presents at draw number `n`, where no value was lined up on its port: a function from draw
number to 16-bit values, under no law (R10, R59; U8). Log entry 5. -/
opaque Config.rngValue (n : Nat) : Word

/-- What an entry of `SINV` is where `SBOX` does not define it (R101, U5). Log entry 8. -/
opaque Config.undefinedInverse (c : Config) (y : Nibble) : Nibble

/-- What an entry of `PINV` is where `PERM` does not define it (R104, U5). Log entry 8. -/
opaque Config.undefinedPosition (c : Config) (j : Fin 16) : Fin 16

end Sys2Proof
end

