-- ==== Sys2Proof/Syntax.lean ====
section
/-!
DEFINITION. The commands of SPN-CORE (00_scope.md R2): one constructor per row of the opcode table (30_encoding.md
R73), its operands the unsigned fields of R75. The field types carry the exact widths, so no ill-formed command can
be written down: a word with a bad reserved field is refused by `decode` and never becomes an `Instr`.
-/

namespace Sys2Proof

/-- A decoded command (R73), in the table's order. -/
inductive Instr where
  /-- `NOP`, 44_control.md R190. -/
  | nop
  /-- `SRST`, soft reset, 44_control.md R192. -/
  | srst
  /-- `RDCR reg`, 44_control.md R194. -/
  | rdcr (reg : Byte)
  /-- `WRCR reg, word16`, 44_control.md R195. -/
  | wrcr (reg : Byte) (word16 : Word)
  /-- `SUB nib`, 40_sbox_perm.md R106. -/
  | sub (nib : Nibble)
  /-- `ISUB nib`, 40_sbox_perm.md R107. -/
  | isub (nib : Nibble)
  /-- `PERM word16`, 40_sbox_perm.md R108. -/
  | perm (word16 : Word)
  /-- `IPERM word16`, 40_sbox_perm.md R109. -/
  | iperm (word16 : Word)
  /-- `KEYGEN`, 41_cipher.md R123. -/
  | keygen
  /-- `ENC word16`, 41_cipher.md R124. -/
  | enc (word16 : Word)
  /-- `DEC word16`, 41_cipher.md R125. -/
  | dec (word16 : Word)
  /-- `LASTKEY`, 41_cipher.md R126. -/
  | lastkey
  /-- `DDTRD dx, dy`, 42_ddt.md R143. -/
  | ddtrd (dx dy : Nibble)
  /-- `ATK`, 43_attack.md R162. -/
  | atk
  /-- `CNTRD cand`, 43_attack.md R163. -/
  | cntrd (cand : Byte)
  deriving DecidableEq, Repr

end Sys2Proof
end

