-- ==== Sys2Proof/WellFormed.lean ====
section
/-!
DEFINITION. When a configuration is well-formed (00_scope.md R6; 10_state.md R36): `SBOX` and `PERM` are each a
bijection on 0..15. Commands need no check of this kind: the types of `Instr` carry every operand's width.
-/

namespace Sys2Proof

/-- All sixteen nibble values, ascending. -/
def allNibbles : List Nibble := [0, 1, 2, 3, 4, 5, 6, 7, 8, 9, 10, 11, 12, 13, 14, 15]

/-- All sixteen bit positions of a word, ascending. -/
def allBits : List (Fin 16) := [0, 1, 2, 3, 4, 5, 6, 7, 8, 9, 10, 11, 12, 13, 14, 15]

/-- `SBOX` is a bijection: every output value appears exactly once (R51). -/
def Config.sboxBijective (c : Config) : Bool := allNibbles.all fun y => c.sbox.toList.count y == 1

/-- `PERM` is a bijection: every destination index appears exactly once (R53). -/
def Config.permBijective (c : Config) : Bool := allBits.all fun j => c.perm.toList.count j == 1

/-- A well-formed configuration (R6). -/
def Config.wellFormed (c : Config) : Bool := c.sboxBijective && c.permBijective

end Sys2Proof
end

