-- ==== Sys2Proof/Decode.lean ====
section
/-!
DEFINITION. Command words (30_encoding.md R70 to R75): the fields, the five formats, the opcode table as data, the
decoder, which is total on all `2^32` words and rejects by name, and the encoder.
-/

namespace Sys2Proof

/-- Field `OP`, bits 31:24 (R71). -/
def fieldOp (w : CmdWord) : Byte := w.extractLsb' 24 8

/-- Field `A`, bits 23:16 (R71). -/
def fieldA (w : CmdWord) : Byte := w.extractLsb' 16 8

/-- Field `D`, bits 15:0 (R71). -/
def fieldD (w : CmdWord) : Word := w.extractLsb' 0 16

/-- The command word with the given fields: `{OP, A, D}` (R71, R79). -/
def mkWord (op a : Byte) (d : Word) : CmdWord := op ++ a ++ d

/-- The five formats (R72). -/
inductive Format where
  | Z | W | N | X | XW
  deriving DecidableEq, Repr

/-- The mask of fixed bits of a format (R72). -/
def Format.mask : Format → CmdWord
  | .Z => 0xFFFFFFFF#32
  | .W => 0xFFFF0000#32
  | .N => 0xFFFFFFF0#32
  | .X => 0xFF00FFFF#32
  | .XW => 0xFF000000#32

/-- One row of the opcode map (R73). -/
structure OpcodeRow where
  op : Byte
  mnemonic : String
  format : Format
  deriving DecidableEq, Repr

/-- `match = OP << 24` (R72). -/
def OpcodeRow.matchWord (r : OpcodeRow) : CmdWord := r.op.zeroExtend 32 <<< 24

/-- A word selects a row when `(cmd & mask) == match` (R72). -/
def OpcodeRow.selects (r : OpcodeRow) (w : CmdWord) : Bool := w &&& r.format.mask == r.matchWord

/-- The complete opcode map (R73). -/
def opcodeTable : List OpcodeRow :=
  [⟨0x00, "NOP", .Z⟩, ⟨0x01, "SRST", .Z⟩, ⟨0x02, "RDCR", .X⟩, ⟨0x03, "WRCR", .XW⟩,
   ⟨0x10, "SUB", .N⟩, ⟨0x11, "ISUB", .N⟩, ⟨0x12, "PERM", .W⟩, ⟨0x13, "IPERM", .W⟩,
   ⟨0x20, "KEYGEN", .Z⟩, ⟨0x21, "ENC", .W⟩, ⟨0x22, "DEC", .W⟩, ⟨0x23, "LASTKEY", .Z⟩,
   ⟨0x30, "DDTRD", .X⟩, ⟨0x40, "ATK", .Z⟩, ⟨0x41, "CNTRD", .X⟩]

/-- Why a word is illegal (R74). -/
inductive Illegal where
  /-- The `OP` is in no row of R73. -/
  | unknownOp
  /-- The `OP` is a row's, and a reserved bit of its format is set. -/
  | reservedBits (mnemonic : String)
  deriving DecidableEq, Repr

/-- Format `Z`: `A` and `D` reserved. -/
def decodeZ (name : String) (a : Byte) (d : Word) (i : Instr) : Except Illegal Instr :=
  if a = 0 ∧ d = 0 then .ok i else .error (.reservedBits name)

/-- Format `W`: `A` reserved, `D` is `word16`. -/
def decodeW (name : String) (a : Byte) (d : Word) (mk : Word → Instr) : Except Illegal Instr :=
  if a = 0 then .ok (mk d) else .error (.reservedBits name)

/-- Format `N`: `A` and `D[15:4]` reserved, `D[3:0]` is `nib`. -/
def decodeN (name : String) (a : Byte) (d : Word) (mk : Nibble → Instr) : Except Illegal Instr :=
  if a = 0 ∧ d.extractLsb' 4 12 = 0 then .ok (mk (d.extractLsb' 0 4)) else .error (.reservedBits name)

/-- Format `X`: `A` is `idx8`, `D` reserved. -/
def decodeX (name : String) (a : Byte) (d : Word) (mk : Byte → Instr) : Except Illegal Instr :=
  if d = 0 then .ok (mk a) else .error (.reservedBits name)

/-- The decoder (R72 to R75): total, and every word is one of the 15 commands or illegal by name (R74). -/
def decode (w : CmdWord) : Except Illegal Instr :=
  let a := fieldA w
  let d := fieldD w
  match fieldOp w with
  | 0x00#8 => decodeZ "NOP" a d .nop
  | 0x01#8 => decodeZ "SRST" a d .srst
  | 0x02#8 => decodeX "RDCR" a d .rdcr
  | 0x03#8 => .ok (.wrcr a d)
  | 0x10#8 => decodeN "SUB" a d .sub
  | 0x11#8 => decodeN "ISUB" a d .isub
  | 0x12#8 => decodeW "PERM" a d .perm
  | 0x13#8 => decodeW "IPERM" a d .iperm
  | 0x20#8 => decodeZ "KEYGEN" a d .keygen
  | 0x21#8 => decodeW "ENC" a d .enc
  | 0x22#8 => decodeW "DEC" a d .dec
  | 0x23#8 => decodeZ "LASTKEY" a d .lastkey
  | 0x30#8 => decodeX "DDTRD" a d fun idx => .ddtrd (idx.extractLsb' 4 4) (idx.extractLsb' 0 4)
  | 0x40#8 => decodeZ "ATK" a d .atk
  | 0x41#8 => decodeX "CNTRD" a d .cntrd
  | _ => .error .unknownOp

/-- A nibble operand in `D[3:0]`, the rest of `D` zero (R72 format `N`). -/
def nibData (n : Nibble) : Word := (0 : BitVec 12) ++ n

/-- The encoder: `word = (OP << 24) | (A << 16) | D` (R79). -/
def encode : Instr → CmdWord
  | .nop => mkWord 0x00 0 0
  | .srst => mkWord 0x01 0 0
  | .rdcr reg => mkWord 0x02 reg 0
  | .wrcr reg word16 => mkWord 0x03 reg word16
  | .sub nib => mkWord 0x10 0 (nibData nib)
  | .isub nib => mkWord 0x11 0 (nibData nib)
  | .perm word16 => mkWord 0x12 0 word16
  | .iperm word16 => mkWord 0x13 0 word16
  | .keygen => mkWord 0x20 0 0
  | .enc word16 => mkWord 0x21 0 word16
  | .dec word16 => mkWord 0x22 0 word16
  | .lastkey => mkWord 0x23 0 0
  | .ddtrd dx dy => mkWord 0x30 (dx ++ dy) 0
  | .atk => mkWord 0x40 0 0
  | .cntrd cand => mkWord 0x41 cand 0

/-- The mnemonic of a command, as the opcode table spells it. -/
def Instr.mnemonic : Instr → String
  | .nop => "NOP"
  | .srst => "SRST"
  | .rdcr _ => "RDCR"
  | .wrcr _ _ => "WRCR"
  | .sub _ => "SUB"
  | .isub _ => "ISUB"
  | .perm _ => "PERM"
  | .iperm _ => "IPERM"
  | .keygen => "KEYGEN"
  | .enc _ => "ENC"
  | .dec _ => "DEC"
  | .lastkey => "LASTKEY"
  | .ddtrd _ _ => "DDTRD"
  | .atk => "ATK"
  | .cntrd _ => "CNTRD"

/-- The command the decoder reads from a word given as the opcode table numbers its bits: every command word is one
32-bit word (R70), so bits above `nbits` are zero and a longer word is no command. Log entry 13. -/
def decodeTableWord (nbits w : Nat) : Option Instr :=
  if nbits ≤ 32 then
    match decode (BitVec.ofNat 32 (w % 2 ^ nbits)) with
    | .ok i => some i
    | .error _ => none
  else none

end Sys2Proof
end

