-- ==== Sys2Proof/Machine/Operands.lean ====
section
/-!
DEFINITION. Operand forms: nibbles of a word (00_scope.md R14), zero extension (R15; there is no sign extension
anywhere), the control-register index (10_state.md R23; 30_encoding.md R82), and the fields of a response word (R76).
-/

namespace Sys2Proof.Machine

/-- `nib(w, k) = w[4k+3 : 4k]` (R14). -/
def nib (w : Word) (k : Nat) : Nibble := w.extractLsb' (4 * k) 4

/-- `setnib(k, n)`, the word `n << 4k` (R14). -/
def setnib (k : Nat) (n : Nibble) : Word := n.zeroExtend 16 <<< (4 * k)

/-- `zext_16` of a value of any smaller width (R15). -/
def zext16 {w : Nat} (v : BitVec w) : Word := v.zeroExtend 16

/-- The four nibbles put back into one word, most significant first (R13, R102). -/
def joinNibbles (n3 n2 n1 n0 : Nibble) : Word := n3 ++ n2 ++ n1 ++ n0

/-- The number of 1 bits of a 4-bit value (R15 `popcount`). -/
def popcount4 (v : BitVec 4) : Nat :=
  (v.getLsbD 0).toNat + (v.getLsbD 1).toNat + (v.getLsbD 2).toNat + (v.getLsbD 3).toNat

/-- The control registers by name (R23, R82). -/
inductive CrName where
  | id | cap | status | deltaP | targetDu | tmask | iter | best | bestCnt
  deriving DecidableEq, Repr

/-- The register an index names; indices 9 to 255 name none (R23). -/
def crOfIndex (idx : Byte) : Option CrName :=
  match idx with
  | 0#8 => some .id
  | 1#8 => some .cap
  | 2#8 => some .status
  | 3#8 => some .deltaP
  | 4#8 => some .targetDu
  | 5#8 => some .tmask
  | 6#8 => some .iter
  | 7#8 => some .best
  | 8#8 => some .bestCnt
  | _ => none

/-- The index of a register (R82). -/
def indexOfCr : CrName → Byte
  | .id => 0
  | .cap => 1
  | .status => 2
  | .deltaP => 3
  | .targetDu => 4
  | .tmask => 5
  | .iter => 6
  | .best => 7
  | .bestCnt => 8

/-- A legal `TMASK` has exactly two of its four bits set (R29). -/
def legalTmask (m : BitVec 4) : Bool := popcount4 m == 2

/-- The data a `WRCR TMASK` accepts: at most 15, and two bits set (R29, R195). -/
def legalTmaskData (v : Word) : Bool := v.extractLsb' 4 12 == 0 && legalTmask (v.extractLsb' 0 4)

/-- The response word of an executed command: `CODE` 0, bits 27:16 zero, `DATA` (R76). -/
def okResponse (data : Word) : CmdWord := (0 : BitVec 16) ++ data

/-- The response word of a refused command: its code, then 28 zeros (R76, R211). -/
def refusedResponse (code : BitVec 4) : CmdWord := code ++ (0 : BitVec 28)

end Sys2Proof.Machine
end

