-- ==== Sys2Proof/Machine/Tables.lean ====
section
/-!
DEFINITION. The read-only tables and the pure functions over them (40_sbox_perm.md R100 to R105; 42_ddt.md R140; the
spaces `SBOX SINV PERM PINV DDT` of 20_memory.md R50). Nothing here holds state (R111). `SINV`, `PINV` and `DDT` are
functions of `SBOX` and `PERM`, so no copy can disagree with them (R142).
-/

namespace Sys2Proof

/-- `ROUNDS` (R5). -/
def Config.rounds : Nat := 4

/-- The default tables and `DIAG_EN` (R105, R8). PRESUMED: the spec marks the tables as general knowledge (G1, G2).
Log entry 3. -/
def Config.default : Config where
  sbox := #v[0xE, 0x4, 0xD, 0x1, 0x2, 0xF, 0xB, 0x8, 0x3, 0xA, 0x6, 0xC, 0x5, 0x9, 0x0, 0x7]
  perm := #v[0, 4, 8, 12, 1, 5, 9, 13, 2, 6, 10, 14, 3, 7, 11, 15]
  diagEn := true

/-- The configuration fault: the tables are not both bijections (R36, R222). -/
def Config.fault (c : Config) : Bool := !c.wellFormed

/-- `Sub(x) = SBOX[x]` (R100). -/
def Config.sub (c : Config) (x : Nibble) : Nibble := c.sbox[x.toNat]'(x.isLt)

/-- `SubInv(y) = SINV[y]`: the one `x` with `SBOX[x] = y` (R101). Where there is not exactly one, `SINV` is not
defined there and its entry is a free value; `CF = 1` then keeps every command from reading it (R222). Log entry 8. -/
def Config.subInv (c : Config) (y : Nibble) : Nibble :=
  match allNibbles.filter fun x => c.sub x == y with
  | [x] => x
  | _ => c.undefinedInverse y

/-- `PERM[i]`, the destination index of source bit `i` (R53, R103). -/
def Config.dest (c : Config) (i : Fin 16) : Fin 16 := c.perm[i]

/-- `PINV[j]`: the one `i` with `PERM[i] = j` (R104), a free value where there is not exactly one. Log entry 8. -/
def Config.pinv (c : Config) (j : Fin 16) : Fin 16 :=
  match allBits.filter fun i => c.dest i == j with
  | [i] => i
  | _ => c.undefinedPosition j

/-- `SubWord(w)`: `Sub` on each of the four nibbles, each staying in its position (R102). -/
def Config.subWord (c : Config) (w : Word) : Word :=
  Machine.joinNibbles (c.sub (Machine.nib w 3)) (c.sub (Machine.nib w 2)) (c.sub (Machine.nib w 1))
    (c.sub (Machine.nib w 0))

/-- `InvSubWord(w)`: the same with `SubInv` (R102). -/
def Config.invSubWord (c : Config) (w : Word) : Word :=
  Machine.joinNibbles (c.subInv (Machine.nib w 3)) (c.subInv (Machine.nib w 2)) (c.subInv (Machine.nib w 1))
    (c.subInv (Machine.nib w 0))

/-- `Permute(w)`: bit `i` of `w` goes to bit `PERM[i]`, by the pseudocode of R103. -/
def Config.permute (c : Config) (w : Word) : Word :=
  allBits.foldl (fun v i => if w.getLsbD i.val then v ||| (1#16 <<< (c.dest i).val) else v) 0

/-- `InvPermute(v)`: bit `i` of the answer is bit `PERM[i]` of `v` (R104). -/
def Config.invPermute (c : Config) (v : Word) : Word :=
  allBits.foldl (fun w i => if v.getLsbD (c.dest i).val then w ||| (1#16 <<< i.val) else w) 0

/-- `DDT[dx][dy]`: how many `x` have `Sub(x) ^ Sub(x ^ dx) = dy` (R140); an integer 0..16. -/
def Config.ddt (c : Config) (dx dy : Nibble) : Nat :=
  allNibbles.countP fun x => (c.sub x ^^^ c.sub (x ^^^ dx)) == dy

end Sys2Proof
end

