-- ==== Sys2Proof/Machine/State.lean ====
section
/-!
DEFINITION. The state of SPN-CORE as plain data (10_state.md R20, R37), the environment's side of its ports (R38 to
R40), the reset state (R42), and why a step could stop.
-/

namespace Sys2Proof.Machine

/-- The five causes of a refusal (60_exceptions.md R212 to R216). -/
inductive Cause where
  /-- `E_ILL`: the word is no command. -/
  | ill
  /-- `E_CFG`: configuration fault. -/
  | cfg
  /-- `E_DIAG`: `LASTKEY` in a build without it. -/
  | diag
  /-- `E_ARG`: operand value out of range. -/
  | arg
  /-- `E_UNINIT`: keys or results that do not exist. -/
  | uninit
  deriving DecidableEq, Repr

/-- The twelve states of the query FSM (R37, 43_attack.md R165). -/
inductive FsmState where
  | idle | kg | clr | chk | draw | q1 | q2 | filt | cand | next | amax | rsp
  deriving DecidableEq, Repr

/-- The FSM's working registers (R37; `best` and `bestCnt` from 43_attack.md R176). They are dead when the block is
idle. -/
structure Work where
  kidx : BitVec 3
  it : Word
  cand : Byte
  p1 : Word
  p2 : Word
  c1 : Word
  c2 : Word
  best : Byte
  bestCnt : Word
  deriving DecidableEq, Repr

/-- The random source as the RNG port shows it (20_memory.md R59): the values lined up on the port, oldest first;
whether it goes on presenting values after them (free ones, `Config.rngValue`); and the number of the next draw, counted
from the start of the environment. Log entry 5. -/
structure Rng where
  queue : List Word
  live : Bool
  pos : Nat
  deriving DecidableEq, Repr

/-- The outside of the block: the levels on its input pins and the host's two lists (R38, R40). Log entry 6. -/
structure Env where
  /-- Pin `rst`. -/
  rst : Bool
  /-- The command words still to be presented, in order: `cmd_valid` while there is one, `cmd` the first. -/
  cmdq : List CmdWord
  /-- The host's index into its command list: how many commands have been accepted (R38). -/
  cmdIdx : Nat
  /-- Pin `rsp_ready`. -/
  rspReady : Bool
  /-- The responses the host has taken, oldest first (R41, R78). -/
  taken : List CmdWord
  /-- The source behind the RNG port. -/
  rng : Rng
  deriving DecidableEq, Repr

/-- The state: the tuple of R20, the FSM level's registers (R37), and beside them what is no state of the block but a
parameter of its steps (R39): the configuration `cfg`, which nothing writes, and the environment `env`. -/
structure State where
  /-- The configuration of this build; log entry 4. -/
  cfg : Config
  /-- `K[0..4]` (R21). -/
  keys : Vector Word 5
  /-- `KV`, key valid (R22). -/
  kv : Bool
  /-- `CR.DELTA_P` (R27). -/
  deltaP : Word
  /-- `CR.TARGET_DU` (R28). -/
  targetDu : Word
  /-- `CR.TMASK` (R29). -/
  tmask : BitVec 4
  /-- `CR.ITER` (R30). -/
  iter : Word
  /-- `CNT[0..255]` (R33). -/
  cnt : Vector Word 256
  /-- `CR.BEST` (R31). -/
  best : Byte
  /-- `CR.BESTCNT` (R32). -/
  bestCnt : Word
  /-- `AV`, attack result valid (R34). -/
  av : Bool
  /-- Sticky flag `E_ILL` (R35), and so the next four. -/
  eIll : Bool
  eCfg : Bool
  eDiag : Bool
  eArg : Bool
  eUninit : Bool
  /-- `CF`, configuration fault (R36). -/
  cf : Bool
  /-- The FSM state (R37). -/
  fsm : FsmState
  /-- The response word waiting to be taken (R37). -/
  rspreg : CmdWord
  work : Work
  env : Env
  deriving DecidableEq, Repr

/-- Why the machine stops. It has no constructor: no rule stops the block (00_scope.md R12; 60_exceptions.md R210), a
refused command and a hold are next states. Safe: there is no fault a claim could hide behind. Log entry 12. -/
inductive Fault where
  deriving DecidableEq, Repr

/-- Why the model gives an instruction no meaning. -/
inductive Refusal where
  /-- Raised by an arm of `exec` whose instruction is not modelled; every arm has its meaning, so nobody raises it.
  Safe. -/
  | notModelled (mnemonic : String)
  deriving DecidableEq, Repr

/-- What the working registers hold after reset. DESIGN CHOICE: the spec leaves them unspecified, and no rule reads one
before writing it (R37, U3). Log entry 2. -/
def Work.reset : Work := ⟨0, 0, 0, 0, 0, 0, 0, 0, 0⟩

/-- The outside at the start: `rst` released, no command presented yet, a host that takes every response, and a live
RNG with nothing lined up. DESIGN CHOICE: log entries 5 and 6. -/
def Env.reset : Env := ⟨false, [], 0, true, [], ⟨[], true, 0⟩⟩

/-- The state after reset of a block with configuration `c`, its outside unchanged (R42, R244). `K`, `CNT`, `BEST`,
`BESTCNT` have no value in the spec; DESIGN CHOICE zero, log entry 1. -/
def State.resetWith (c : Config) (e : Env) : State where
  cfg := c
  keys := Vector.replicate 5 0
  kv := false
  deltaP := 0x0B00
  targetDu := 0x0606
  tmask := 0b0101
  iter := 0x1388
  cnt := Vector.replicate 256 0
  best := 0
  bestCnt := 0
  av := false
  eIll := false
  eCfg := false
  eDiag := false
  eArg := false
  eUninit := false
  cf := c.fault
  fsm := .idle
  rspreg := 0
  work := Work.reset
  env := e

/-- The machine right after reset (R42), with the default configuration. -/
def State.reset : State := State.resetWith Config.default Env.reset

end Sys2Proof.Machine
end

