-- ==== Sys2Proof/Machine/Flags.lean ====
section
/-!
DEFINITION. The flags: the codes of the refusals (30_encoding.md R77), the sticky flags (10_state.md R35), and the
words a host reads, `STATUS` (R26) and `CAP` (R25). There are no arithmetic condition codes (R35).
-/

namespace Sys2Proof.Machine

/-- The error code of a cause (R77). -/
def Cause.code : Cause → BitVec 4
  | .ill => 1
  | .cfg => 2
  | .diag => 3
  | .arg => 4
  | .uninit => 5

/-- The sticky flag of a cause (R35). -/
def State.sticky (s : State) : Cause → Bool
  | .ill => s.eIll
  | .cfg => s.eCfg
  | .diag => s.eDiag
  | .arg => s.eArg
  | .uninit => s.eUninit

/-- Set the one sticky flag of a cause (R35, R211). -/
def State.setSticky (s : State) : Cause → State
  | .ill => { s with eIll := true }
  | .cfg => { s with eCfg := true }
  | .diag => { s with eDiag := true }
  | .arg => { s with eArg := true }
  | .uninit => { s with eUninit := true }

/-- `CR.STATUS`, a live view of the flags, bit 15 first (R26). -/
def State.statusWord (s : State) : Word :=
  (0 : BitVec 3) ++ BitVec.ofBool s.eUninit ++ BitVec.ofBool s.eArg ++ BitVec.ofBool s.eDiag ++
    BitVec.ofBool s.eCfg ++ BitVec.ofBool s.eIll ++ (0 : BitVec 5) ++ BitVec.ofBool s.cf ++
    BitVec.ofBool s.av ++ BitVec.ofBool s.kv

/-- `CR.CAP`: bits 3:0 `ROUNDS`, bit 4 `DIAG_EN`, the rest zero (R25). -/
def State.capWord (s : State) : Word :=
  (0 : BitVec 11) ++ BitVec.ofBool s.cfg.diagEn ++ BitVec.ofNat 4 Config.rounds

/-- `CR.ID`, hardwired (R24). -/
def idWord : Word := 0x5350

end Sys2Proof.Machine
end

