-- ==== Sys2Proof/Machine/Ops.lean ====
section
/-!
DEFINITION. The shared operations: answering (00_scope.md R15 `rsp <-`), refusing (60_exceptions.md R211, the block's
one abnormal event; it saves nothing and needs no return, R221, R223), drawing from the RNG (20_memory.md R59), reset
(70_reset_and_hazards.md R240, R241), the control registers (44_control.md R194, R195) and the two handshakes (R78).
-/

namespace Sys2Proof.Machine

/-- `rsp <- v`: the command completes with response data `v` and the response waits to be taken (R15, R169). -/
def State.respond (s : State) (data : Word) : State := { s with fsm := .rsp, rspreg := okResponse data }

/-- `raise E_X` (R211): set the one sticky flag, answer the code, change nothing else. -/
def State.raise (s : State) (e : Cause) : State :=
  { s.setSticky e with fsm := .rsp, rspreg := refusedResponse e.code }

/-- One draw: the value lined up first; else, from a live RNG, the free value of this draw number; else none, and the
block holds (R59, R227). -/
def Rng.draw (g : Rng) : Option (Word × Rng) :=
  match g.queue with
  | v :: rest => some (v, { g with queue := rest, pos := g.pos + 1 })
  | [] => if g.live then some (Config.rngValue g.pos, { g with pos := g.pos + 1 }) else none

/-- The value draw number `k` from now would give, if the RNG presents one (R59). -/
def Rng.peek (g : Rng) (k : Nat) : Option Word :=
  match g.queue[k]? with
  | some v => some v
  | none => if g.live then some (Config.rngValue (g.pos + k)) else none

/-- The RNG after `k` draws (R59). -/
def Rng.after (g : Rng) (k : Nat) : Rng := { g with queue := g.queue.drop k, pos := g.pos + k }

/-- The state with another RNG behind the port. -/
def State.setRng (s : State) (g : Rng) : State := { s with env := { s.env with rng := g } }

/-- `Draw()` of the block: the value and the state in which the stream has advanced (R59). -/
def State.draw (s : State) : Option (Word × State) :=
  match s.env.rng.draw with
  | some (v, g) => some (v, s.setRng g)
  | none => none

/-- Every piece of the block's state takes its reset value; the configuration and the outside stay (R42, R245). -/
def State.toReset (s : State) : State := State.resetWith s.cfg s.env

/-- `K[kidx] <- v`, then the next index (R166). An index above 4 names no key; no run has one (log entry 10). -/
def State.putKey (s : State) (v : Word) : State :=
  { s with
    keys := s.keys.setIfInBounds s.work.kidx.toNat v
    work := { s.work with kidx := s.work.kidx + 1 } }

/-- The value of a control register (R194). -/
def State.readCr (s : State) : CrName → Word
  | .id => idWord
  | .cap => s.capWord
  | .status => s.statusWord
  | .deltaP => s.deltaP
  | .targetDu => s.targetDu
  | .tmask => zext16 s.tmask
  | .iter => s.iter
  | .best => zext16 s.best
  | .bestCnt => s.bestCnt

/-- Whether a control register holds a value only while `AV = 1` (R31, R32). -/
def CrName.needsAv : CrName → Bool
  | .best => true
  | .bestCnt => true
  | .id => false
  | .cap => false
  | .status => false
  | .deltaP => false
  | .targetDu => false
  | .tmask => false
  | .iter => false

/-- The control registers a host may write, and what each write does (R195); none for a read-only register and for
`TMASK` data that is not legal (R29). -/
def State.writeCr (s : State) (r : CrName) (v : Word) : Option State :=
  match r with
  | .deltaP => some { s with deltaP := v }
  | .targetDu => some { s with targetDu := v }
  | .tmask => if legalTmaskData v then some { s with tmask := v.extractLsb' 0 4 } else none
  | .iter => some { s with iter := v }
  | .id => none
  | .cap => none
  | .status => none
  | .best => none
  | .bestCnt => none

/-- The block accepts the command word presented first: the host's index advances by one (R38, R78). -/
def State.accept (s : State) : State :=
  { s with env := { s.env with cmdq := s.env.cmdq.tail, cmdIdx := s.env.cmdIdx + 1 } }

/-- The host takes the response: the block is idle again (R177, R78). -/
def State.handOver (s : State) : State :=
  { s with fsm := .idle, env := { s.env with taken := s.env.taken ++ [s.rspreg] } }

end Sys2Proof.Machine
end

