-- ==== Sys2Proof/Machine/Environment.lean ====
section
/-!
DEFINITION. What the agents outside the block can do (00_scope.md R10): the host presents a command word, raises or
lowers `rsp_ready` and `rst`; the RNG lines up a value, falls silent or comes alive. None of them touches the block's
own state; each may happen between any two steps.
-/

namespace Sys2Proof.Machine

/-- One action of the host or of the RNG (R10, R40). -/
inductive EnvAction where
  /-- The host adds a command word to those it will present (R38). -/
  | present (w : CmdWord)
  /-- The host drives `rsp_ready`. -/
  | setRspReady (b : Bool)
  /-- The host drives `rst` (R240). -/
  | setRst (b : Bool)
  /-- The RNG has one more value to present (R59). -/
  | deliver (v : Word)
  /-- The RNG goes on after the values lined up, or falls silent (R227, U9). -/
  | setLive (b : Bool)
  deriving DecidableEq, Repr

/-- The outside after an action. -/
def Env.act (e : Env) : EnvAction → Env
  | .present w => { e with cmdq := e.cmdq ++ [w] }
  | .setRspReady b => { e with rspReady := b }
  | .setRst b => { e with rst := b }
  | .deliver v => { e with rng := { e.rng with queue := e.rng.queue ++ [v] } }
  | .setLive b => { e with rng := { e.rng with live := b } }

/-- The state after an action of the outside: only `env` changes. -/
def State.act (s : State) (a : EnvAction) : State := { s with env := s.env.act a }

/-- The outside, with the block idle, `rst` released and the word presented next. -/
def State.presentNow (s : State) (w : CmdWord) : State :=
  { s with fsm := .idle, env := { s.env with rst := false, cmdq := w :: s.env.cmdq } }

end Sys2Proof.Machine
end

