-- ==== Sys2Proof/Machine/Cipher.lean ====
section
/-!
DEFINITION. The cipher (41_cipher.md R120, R121) and its commands `KEYGEN ENC DEC LASTKEY` (R123 to R126). No
intermediate round value is state (R127).
-/

namespace Sys2Proof

/-- `Enc(p)` with the keys `k` (R120): three full rounds, then the last round without permutation and the whitening. -/
def Config.enc (c : Config) (k : Vector Word 5) (p : Word) : Word :=
  let s := [k[0], k[1], k[2]].foldl (fun s ki => c.permute (c.subWord (s ^^^ ki))) p
  c.subWord (s ^^^ k[3]) ^^^ k[4]

/-- `Dec(x)` with the keys `k` (R121): each step undoes the matching step of `enc`. -/
def Config.dec (c : Config) (k : Vector Word 5) (x : Word) : Word :=
  let s := c.invSubWord (x ^^^ k[4]) ^^^ k[3]
  [k[2], k[1], k[0]].foldl (fun s ki => c.invSubWord (c.invPermute s) ^^^ ki) s

end Sys2Proof

namespace Sys2Proof.Machine

/-- The start of `KEYGEN`: the next key to load is `K[0]` (R166). -/
def State.keygenStart (s : State) : State := { s with work := { s.work with kidx := 0 } }

/-- The end of `KEYGEN` (R123): the keys are valid, results of an attack on earlier keys are not. -/
def State.keygenFinish (s : State) : State := { s with kv := true, av := false }.respond 0

/-- `n` more draws into the key registers in index order, then the end of `KEYGEN`; where the RNG presents no value
the block holds in `S_KG` (R123, R166). -/
def State.keygenLoop : Nat → State → State
  | 0, s => s.keygenFinish
  | n + 1, s =>
    match s.draw with
    | some (v, s') => State.keygenLoop n (s'.putKey v)
    | none => { s with fsm := .kg }

/-- A `KEYGEN` held in `S_KG` goes on with the key `kidx` (R166). -/
def State.keygenResume (s : State) : State := s.keygenLoop (5 - s.work.kidx.toNat)

/-- `KEYGEN` (R123). -/
def execKeygen (s : State) : Host.Outcome State Fault Refusal :=
  .next (if s.cf then s.raise .cfg else s.keygenStart.keygenLoop 5)

/-- `ENC word16` (R124). -/
def execEnc (p : Word) (s : State) : Host.Outcome State Fault Refusal :=
  .next (if s.cf then s.raise .cfg else if !s.kv then s.raise .uninit else s.respond (s.cfg.enc s.keys p))

/-- `DEC word16` (R125). -/
def execDec (x : Word) (s : State) : Host.Outcome State Fault Refusal :=
  .next (if s.cf then s.raise .cfg else if !s.kv then s.raise .uninit else s.respond (s.cfg.dec s.keys x))

/-- `LASTKEY` (R126): `DIAG_EN` is checked before `KV`. -/
def execLastkey (s : State) : Host.Outcome State Fault Refusal :=
  .next (if s.cf then s.raise .cfg else if !s.cfg.diagEn then s.raise .diag
    else if !s.kv then s.raise .uninit else s.respond s.keys[4])

end Sys2Proof.Machine
end

