-- ==== Sys2Proof/Machine/Attack.lean ====
section
/-!
DEFINITION. The differential attack as pure functions (43_attack.md R155 to R161) and the commands `ATK` and `CNTRD`
(R162, R163). The functions take the cipher as an oracle, a function from plaintext to ciphertext, so that they have no
path to the keys (R164).
-/

namespace Sys2Proof.Machine

/-- The counter table `CNT[0..255]` (10_state.md R33). -/
abbrev Counters := Vector Word 256

/-- The inputs of the attack (R155): the oracle, the S-box inverse, and the registers read at its start. -/
structure AttackIn where
  enc : Word → Word
  inv : Nibble → Nibble
  deltaP : Word
  targetDu : Word
  tmask : BitVec 4

/-- `a`, the lower targeted position (R156). For a mask that is not legal, which no run has: log entry 9. -/
def lowPos (m : BitVec 4) : Nat :=
  if m.getLsbD 0 then 0 else if m.getLsbD 1 then 1 else if m.getLsbD 2 then 2 else 3

/-- `b`, the higher targeted position (R156). Log entry 9 as for `lowPos`. -/
def highPos (m : BitVec 4) : Nat :=
  if m.getLsbD 3 then 3 else if m.getLsbD 2 then 2 else if m.getLsbD 1 then 1 else 0

/-- One nibble of `FMASK`: `0x0` where targeted, `0xF` where excluded (R156). -/
def fmaskNibble (m : BitVec 4) (k : Nat) : Nibble := if m.getLsbD k then 0x0 else 0xF

/-- `FMASK` (R156). -/
def fmask (m : BitVec 4) : Word :=
  joinNibbles (fmaskNibble m 3) (fmaskNibble m 2) (fmaskNibble m 1) (fmaskNibble m 0)

/-- `Place(x) = setnib(b, hi) | setnib(a, lo)` (R157). -/
def place (m : BitVec 4) (x : Byte) : Word :=
  setnib (highPos m) (x.extractLsb' 4 4) ||| setnib (lowPos m) (x.extractLsb' 0 4)

/-- `PartialDiff(c1, c2, x)` (R158). -/
def partialDiff (inv : Nibble → Nibble) (m : BitVec 4) (c1 c2 : Word) (x : Byte) : Word :=
  let v1 := c1 ^^^ place m x
  let v2 := c2 ^^^ place m x
  [lowPos m, highPos m].foldl (fun du k => du ||| setnib k (inv (nib v1 k) ^^^ inv (nib v2 k))) 0

/-- `Match(c1, c2, x)`: all 16 bits compared (R158). -/
def AttackIn.isMatch (x : AttackIn) (c1 c2 : Word) (cand : Byte) : Bool :=
  partialDiff x.inv x.tmask c1 c2 cand == x.targetDu

/-- The filter of a ciphertext pair (R159). -/
def passesFilter (m : BitVec 4) (c1 c2 : Word) : Bool := (c1 ^^^ c2) &&& fmask m == 0

/-- The second plaintext of a pair (R159). -/
def AttackIn.p2 (x : AttackIn) (r : Word) : Word := r ^^^ x.deltaP

/-- Whether the pair drawn as `r` passes the filter and candidate `cand` matches it (R159). -/
def AttackIn.counts (x : AttackIn) (r : Word) (cand : Byte) : Bool :=
  passesFilter x.tmask (x.enc r) (x.enc (x.p2 r)) && x.isMatch (x.enc r) (x.enc (x.p2 r)) cand

/-- One iteration for the drawn `r`: a discarded pair changes no counter, a passing one adds 1 to the counter of every
matching candidate (R159). -/
def AttackIn.iteration (x : AttackIn) (t : Counters) (r : Word) : Counters :=
  let c1 := x.enc r
  let c2 := x.enc (x.p2 r)
  if passesFilter x.tmask c1 c2 then
    Vector.ofFn fun i : Fin 256 => if x.isMatch c1 c2 (BitVec.ofFin i) then t[i] + 1 else t[i]
  else t

/-- All counters zero (R160). -/
def zeroCounters : Counters := Vector.replicate 256 0

/-- The counters after the whole run on the drawn values (R160). -/
def AttackIn.run (x : AttackIn) (rs : List Word) : Counters := rs.foldl x.iteration zeroCounters

/-- One step of the ascending scan: strictly greater replaces (R161). -/
def argMaxStep (t : Counters) (acc : Byte × Word) (i : Fin 256) : Byte × Word :=
  if acc.2 < t[i] then (BitVec.ofFin i, t[i]) else acc

/-- `ArgMax(CNT)`: the lowest-indexed candidate achieving the maximum, and its count (R161). -/
def argMax (t : Counters) : Byte × Word := (List.finRange 256).foldl (argMaxStep t) (0, 0)

/-- What the attack reads of the state: the oracle, `SINV` and the registers (R155). -/
def State.attackIn (s : State) : AttackIn where
  enc := s.cfg.enc s.keys
  inv := s.cfg.subInv
  deltaP := s.deltaP
  targetDu := s.targetDu
  tmask := s.tmask

/-- The start of `ATK`: counters cleared, no result, no iteration done (R162, R167). -/
def State.atkClear (s : State) : State :=
  { s with cnt := zeroCounters, av := false, work := { s.work with it := 0 } }

/-- One iteration of `ATK` on the drawn `r` (R159, R175). -/
def State.atkIterate (s : State) (r : Word) : State :=
  { s with cnt := s.attackIn.iteration s.cnt r, work := { s.work with it := s.work.it + 1 } }

/-- The end of `ATK`: the arg-max is latched and answered (R162). -/
def State.atkFinish (s : State) : State :=
  let r := argMax s.cnt
  { s with best := r.1, bestCnt := r.2, av := true }.respond (zext16 r.1)

/-- `n` more iterations, one draw each, then the end of `ATK`; where the RNG presents no value the block holds in
`S_DRAW` (R162, R170). -/
def State.atkLoop : Nat → State → State
  | 0, s => s.atkFinish
  | n + 1, s =>
    match s.draw with
    | some (r, s') => State.atkLoop n (s'.atkIterate r)
    | none => { s with fsm := .draw }

/-- An `ATK` held in `S_DRAW` goes on with the iterations still to do (R168, R170). -/
def State.atkResume (s : State) : State := s.atkLoop (s.iter.toNat - s.work.it.toNat)

/-- `ATK` (R162). -/
def execAtk (s : State) : Host.Outcome State Fault Refusal :=
  .next (if s.cf then s.raise .cfg else if !s.kv then s.raise .uninit
    else s.atkClear.atkLoop s.iter.toNat)

/-- `CNTRD cand` (R163). -/
def execCntrd (cand : Byte) (s : State) : Host.Outcome State Fault Refusal :=
  .next (if s.cf then s.raise .cfg else if !s.av then s.raise .uninit
    else s.respond (s.cnt[cand.toNat]'(cand.isLt)))

end Sys2Proof.Machine
end

