-- ==== Sys2Proof/Machine/Control.lean ====
section
/-!
DEFINITION. The control commands `NOP SRST RDCR WRCR` (44_control.md R190, R192, R194, R195).
-/

namespace Sys2Proof.Machine

/-- `NOP` (R190): not refused under `CF = 1`. -/
def execNop (s : State) : Host.Outcome State Fault Refusal := .next (s.respond 0)

/-- `SRST` (R192, R241): the reset state, then the answer; the RNG and the host are outside and stay (R245). -/
def execSrst (s : State) : Host.Outcome State Fault Refusal := .next (s.toReset.respond 0)

/-- `RDCR reg` (R194): not refused under `CF = 1`; reading clears nothing. -/
def execRdcr (reg : Byte) (s : State) : Host.Outcome State Fault Refusal :=
  .next (match crOfIndex reg with
    | none => s.raise .arg
    | some r => if r.needsAv && !s.av then s.raise .uninit else s.respond (s.readCr r))

/-- `WRCR reg, word16` (R195): a refused write changes no register; `AV` is not cleared. -/
def execWrcr (reg : Byte) (v : Word) (s : State) : Host.Outcome State Fault Refusal :=
  .next (if s.cf then s.raise .cfg
    else match crOfIndex reg with
      | none => s.raise .arg
      | some r =>
        match s.writeCr r v with
        | none => s.raise .arg
        | some s' => s'.respond 0)

end Sys2Proof.Machine
end

