-- ==== Sys2Proof/Machine/Leaf.lean ====
section
/-!
DEFINITION. The table commands: `SUB ISUB PERM IPERM` (40_sbox_perm.md R106 to R109) and `DDTRD` (42_ddt.md R143). They
need no keys, draw nothing and write no state but the response; under a configuration fault they are refused (R213).
-/

namespace Sys2Proof.Machine

/-- A table command: refused under `CF = 1`, else it answers (R213). -/
def State.answerTable (s : State) (data : Word) : State := if s.cf then s.raise .cfg else s.respond data

/-- `SUB nib` (R106). -/
def execSub (nib : Nibble) (s : State) : Host.Outcome State Fault Refusal :=
  .next (s.answerTable (zext16 (s.cfg.sub nib)))

/-- `ISUB nib` (R107). -/
def execIsub (nib : Nibble) (s : State) : Host.Outcome State Fault Refusal :=
  .next (s.answerTable (zext16 (s.cfg.subInv nib)))

/-- `PERM word16` (R108). -/
def execPerm (w : Word) (s : State) : Host.Outcome State Fault Refusal :=
  .next (s.answerTable (s.cfg.permute w))

/-- `IPERM word16` (R109). -/
def execIperm (w : Word) (s : State) : Host.Outcome State Fault Refusal :=
  .next (s.answerTable (s.cfg.invPermute w))

/-- `DDTRD dx, dy` (R143). -/
def execDdtrd (dx dy : Nibble) (s : State) : Host.Outcome State Fault Refusal :=
  .next (s.answerTable (BitVec.ofNat 16 (s.cfg.ddt dx dy)))

end Sys2Proof.Machine
end

