-- ==== Sys2Proof/Machine/Dispatch.lean ====
section
/-!
DEFINITION. The one match from a decoded command to its meaning.
-/

namespace Sys2Proof.Machine

def exec (i : Instr) (s : State) : Host.Outcome State Fault Refusal :=
  match i with
  | .nop => Sys2Proof.Machine.execNop s
  | .srst => Sys2Proof.Machine.execSrst s
  | .rdcr reg => Sys2Proof.Machine.execRdcr reg s
  | .wrcr reg word16 => Sys2Proof.Machine.execWrcr reg word16 s
  | .sub nib => Sys2Proof.Machine.execSub nib s
  | .isub nib => Sys2Proof.Machine.execIsub nib s
  | .perm word16 => Sys2Proof.Machine.execPerm word16 s
  | .iperm word16 => Sys2Proof.Machine.execIperm word16 s
  | .keygen => Sys2Proof.Machine.execKeygen s
  | .enc word16 => Sys2Proof.Machine.execEnc word16 s
  | .dec word16 => Sys2Proof.Machine.execDec word16 s
  | .lastkey => Sys2Proof.Machine.execLastkey s
  | .ddtrd dx dy => Sys2Proof.Machine.execDdtrd dx dy s
  | .atk => Sys2Proof.Machine.execAtk s
  | .cntrd cand => Sys2Proof.Machine.execCntrd cand s

end Sys2Proof.Machine
end

