-- ==== Sys2Proof/Machine/Fsm.lean ====
section
/-!
DEFINITION. The FSM level (43_attack.md R165 to R177): the refusal check of `S_IDLE` (60_exceptions.md R219) and one
transition of each of the twelve states. A `tick` is one transition, of unspecified length (R165; log entry 11).
-/

namespace Sys2Proof.Machine

/-- The commands that work under `CF = 1` (R213). -/
def worksUnderFault : Instr → Bool
  | .nop => true
  | .srst => true
  | .rdcr _ => true
  | .wrcr _ _ => false
  | .sub _ => false
  | .isub _ => false
  | .perm _ => false
  | .iperm _ => false
  | .keygen => false
  | .enc _ => false
  | .dec _ => false
  | .lastkey => false
  | .ddtrd _ _ => false
  | .atk => false
  | .cntrd _ => false

/-- The `E_ARG` condition (R215). -/
def argError : Instr → Bool
  | .rdcr reg => decide (8 < reg.toNat)
  | .wrcr reg v =>
    !([3, 4, 5, 6].contains reg.toNat) ||
      (reg.toNat == 5 && (decide (15 < v.toNat) || popcount4 (v.extractLsb' 0 4) != 2))
  | .nop => false
  | .srst => false
  | .sub _ => false
  | .isub _ => false
  | .perm _ => false
  | .iperm _ => false
  | .keygen => false
  | .enc _ => false
  | .dec _ => false
  | .lastkey => false
  | .ddtrd _ _ => false
  | .atk => false
  | .cntrd _ => false

/-- The `E_UNINIT` condition (R216). -/
def uninitError (i : Instr) (s : State) : Bool :=
  match i with
  | .enc _ => !s.kv
  | .dec _ => !s.kv
  | .lastkey => !s.kv
  | .atk => !s.kv
  | .cntrd _ => !s.av
  | .rdcr reg => (reg.toNat == 7 || reg.toNat == 8) && !s.av
  | .nop => false
  | .srst => false
  | .wrcr _ _ => false
  | .sub _ => false
  | .isub _ => false
  | .perm _ => false
  | .iperm _ => false
  | .keygen => false
  | .ddtrd _ _ => false

/-- The check sequence of `S_IDLE` for a word that is a command: the first cause that applies (R219). -/
def refusalOf (i : Instr) (s : State) : Option Cause :=
  if s.cf && !worksUnderFault i then some .cfg
  else if i == .lastkey && !s.cfg.diagEn then some .diag
  else if argError i then some .arg
  else if uninitError i s then some .uninit
  else none

/-- The state of an outcome that is a next state, else the given state. -/
def nextOr (s : State) : Host.Outcome State Fault Refusal → State
  | .next t => t
  | _ => s

/-- What `S_IDLE` does with an accepted word (R169): refuse it, begin `KEYGEN` or `ATK`, or perform the command's single
transfer. -/
def State.dispatchWord (s : State) (w : CmdWord) : State :=
  match decode w with
  | .error _ => s.raise .ill
  | .ok i =>
    match refusalOf i s with
    | some e => s.raise e
    | none =>
      match i with
      | .keygen => { s.keygenStart with fsm := .kg }
      | .atk => { s with fsm := .clr }
      | _ => nextOr s (exec i s)

/-- `S_IDLE` (R169): left when a command word is presented. -/
def State.tickIdle (s : State) : State :=
  match s.env.cmdq with
  | [] => s
  | w :: _ => s.accept.dispatchWord w

/-- `S_KG` (R166): left when the RNG presents a value; held otherwise. -/
def State.tickKg (s : State) : State :=
  match s.draw with
  | none => s
  | some (v, t) =>
    let keys := t.keys.setIfInBounds t.work.kidx.toNat v
    if t.work.kidx = 4#3 then { t with keys := keys, kv := true, av := false, fsm := .rsp, rspreg := 0 }
    else { t with keys := keys, work := { t.work with kidx := t.work.kidx + 1 } }

/-- `S_CLR` (R167). -/
def State.tickClr (s : State) : State :=
  { s with cnt := zeroCounters, av := false, fsm := .chk, work := { s.work with it := 0 } }

/-- `S_CHK` (R168). -/
def State.tickChk (s : State) : State :=
  if s.work.it = s.iter then { s with fsm := .amax, work := { s.work with cand := 0, best := 0, bestCnt := 0 } }
  else { s with fsm := .draw }

/-- `S_DRAW` (R170). -/
def State.tickDraw (s : State) : State :=
  match s.draw with
  | none => s
  | some (v, t) => { t with fsm := .q1, work := { t.work with p1 := v, p2 := v ^^^ t.deltaP } }

/-- `S_Q1` (R171). -/
def State.tickQ1 (s : State) : State :=
  { s with fsm := .q2, work := { s.work with c1 := s.cfg.enc s.keys s.work.p1 } }

/-- `S_Q2` (R172). -/
def State.tickQ2 (s : State) : State :=
  { s with fsm := .filt, work := { s.work with c2 := s.cfg.enc s.keys s.work.p2 } }

/-- `S_FILT` (R173). -/
def State.tickFilt (s : State) : State :=
  if (s.work.c1 ^^^ s.work.c2) &&& fmask s.tmask ≠ 0 then { s with fsm := .next }
  else { s with fsm := .cand, work := { s.work with cand := 0 } }

/-- `S_CAND` (R174). -/
def State.tickCand (s : State) : State :=
  let i := s.work.cand.toNat
  let t : State :=
    if s.attackIn.isMatch s.work.c1 s.work.c2 s.work.cand then
      { s with cnt := s.cnt.set i (s.cnt[i]'(s.work.cand.isLt) + 1) (s.work.cand.isLt) }
    else s
  if s.work.cand = 255#8 then { t with fsm := .next }
  else { t with work := { t.work with cand := t.work.cand + 1 } }

/-- `S_NEXT` (R175). -/
def State.tickNext (s : State) : State :=
  { s with fsm := .chk, work := { s.work with it := s.work.it + 1 } }

/-- `S_AMAX` (R176). -/
def State.tickAmax (s : State) : State :=
  let n := s.cnt[s.work.cand.toNat]'(s.work.cand.isLt)
  let w := if s.work.bestCnt < n then { s.work with best := s.work.cand, bestCnt := n } else s.work
  if s.work.cand = 255#8 then
    { s with best := w.best, bestCnt := w.bestCnt, av := true, fsm := .rsp, rspreg := okResponse (zext16 w.best),
             work := w }
  else { s with work := { w with cand := s.work.cand + 1 } }

/-- `S_RSP` (R177): left when the host takes the response; held otherwise. -/
def State.tickRsp (s : State) : State := if s.env.rspReady then s.handOver else s

/-- One transition of the block at the FSM level. `rst` overrides everything: any command in flight is abandoned with
no response and all state takes its reset value (R240, R243). -/
def State.tick (s : State) : State :=
  if s.env.rst then s.toReset
  else match s.fsm with
    | .idle => s.tickIdle
    | .kg => s.tickKg
    | .clr => s.tickClr
    | .chk => s.tickChk
    | .draw => s.tickDraw
    | .q1 => s.tickQ1
    | .q2 => s.tickQ2
    | .filt => s.tickFilt
    | .cand => s.tickCand
    | .next => s.tickNext
    | .amax => s.tickAmax
    | .rsp => s.tickRsp

/-- `n` transitions. -/
def State.ticks : Nat → State → State
  | 0, s => s
  | n + 1, s => State.ticks n s.tick

end Sys2Proof.Machine
end

