-- ==== Sys2Proof/Machine/Transact.lean ====
section
/-!
DEFINITION. The transaction level (00_scope.md R11): an idle block accepts the command word presented first and executes
it; a word that is no command is accepted like any other and refused with `E_ILL` (30_encoding.md R74, R78).
-/

namespace Sys2Proof.Machine

/-- An accepted word, decoded and executed (R78). -/
def State.runWord (s : State) (w : CmdWord) : Host.Outcome State Fault Refusal :=
  match decode w with
  | .error _ => .next (s.raise .ill)
  | .ok i => exec i s

/-- One transaction of an idle block; with no word presented it stays idle (R40, R227). -/
def State.transact (s : State) : Host.Outcome State Fault Refusal :=
  match s.env.cmdq with
  | [] => .next s
  | w :: _ => s.accept.runWord w

end Sys2Proof.Machine
end

