-- ==== Sys2Proof/Machine/Step.lean ====
section
/-!
DEFINITION. One step of SPN-CORE. While `rst` is 1 the block stays in its reset state. An idle block runs one
transaction; a command held at a draw goes on as far as the RNG lets it; a pending response is handed over when the host
takes it. The FSM states in between, which a transaction passes through in one step, take one FSM transition each. Log
entry 7.
-/

namespace Sys2Proof.Machine

def step (s : State) : Host.Outcome State Fault Refusal :=
  if s.env.rst then .next s.toReset
  else match s.fsm with
    | .idle => s.transact
    | .kg => .next s.keygenResume
    | .draw => .next s.atkResume
    | .rsp => .next s.tickRsp
    | .clr => .next s.tickClr
    | .chk => .next s.tickChk
    | .q1 => .next s.tickQ1
    | .q2 => .next s.tickQ2
    | .filt => .next s.tickFilt
    | .cand => .next s.tickCand
    | .next => .next s.tickNext
    | .amax => .next s.tickAmax

/-- The state in which the host presents, next, the command word the opcode table numbers as `w`. A block that fetches
nothing has its next instruction on the command port (10_state.md R38). Log entry 6. -/
def State.withFetchWord (s : State) (nbits w : Nat) : State :=
  s.presentNow (BitVec.ofNat 32 (w % 2 ^ nbits))

end Sys2Proof.Machine
end

