-- ==== Sys2Proof/Machine/Asm.lean ====
section
/-!
DEFINITION. The textual form of command lists (30_encoding.md R79, R80, R82): one line gives the command words it stands
for, or is rejected. Lines are lists of characters. The assembler is a tool beside the block, not a part of it (R79,
decision D22). Log entry 14 names the points of the text format the spec leaves open.
-/

namespace Sys2Proof.Machine.Asm

def isBlank (ch : Char) : Bool := ch == ' ' || ch == '\t'

/-- A piece of text without the blanks around it. -/
def trim (l : List Char) : List Char := (((l.dropWhile isBlank).reverse).dropWhile isBlank).reverse

/-- The text before `;` (R79: what follows is a comment). -/
def dropComment (l : List Char) : List Char := l.takeWhile (· != ';')

/-- The pieces between commas. -/
def splitCommas : List Char → List (List Char)
  | [] => [[]]
  | ch :: rest =>
    match splitCommas rest with
    | [] => [[ch]]
    | p :: ps => if ch == ',' then [] :: p :: ps else (ch :: p) :: ps

/-- The value of one digit, either case for the letters. -/
def digit (ch : Char) : Option Nat :=
  let n := ch.toNat
  if 48 ≤ n ∧ n ≤ 57 then some (n - 48)
  else if 65 ≤ n ∧ n ≤ 70 then some (n - 55)
  else if 97 ≤ n ∧ n ≤ 102 then some (n - 87)
  else none

/-- Digits of a base, most significant first; `acc` is the value so far. -/
def digits (base : Nat) : Nat → List Char → Option Nat
  | acc, [] => some acc
  | acc, ch :: rest =>
    match digit ch with
    | some d => if d < base then digits base (base * acc + d) rest else none
    | none => none

/-- A number: hexadecimal with `0x`, binary with `0b`, else decimal (R79). -/
def number : List Char → Option Nat
  | [] => none
  | ['0', 'x'] => none
  | ['0', 'b'] => none
  | '0' :: 'x' :: ds => digits 16 0 ds
  | '0' :: 'b' :: ds => digits 2 0 ds
  | ds => digits 10 0 ds

/-- A number that fits its field; the assembler rejects one that does not (R79). -/
def operand (width : Nat) (l : List Char) : Option (BitVec width) :=
  match number l with
  | some n => if n < 2 ^ width then some (BitVec.ofNat width n) else none
  | none => none

/-- The register names (R82). -/
def registerName (l : List Char) : Option CrName :=
  if l = "ID".toList then some .id
  else if l = "CAP".toList then some .cap
  else if l = "STATUS".toList then some .status
  else if l = "DELTA_P".toList then some .deltaP
  else if l = "TARGET_DU".toList then some .targetDu
  else if l = "TMASK".toList then some .tmask
  else if l = "ITER".toList then some .iter
  else if l = "BEST".toList then some .best
  else if l = "BESTCNT".toList then some .bestCnt
  else none

/-- `reg`: a register name or a number 0..255 (R79). -/
def register (l : List Char) : Option Byte :=
  match registerName l with
  | some r => some (indexOfCr r)
  | none => operand 8 l

/-- One command from one operand. -/
def with1 {α : Type} (a : Option α) (mk : α → List Instr) : Option (List Instr) :=
  match a with
  | some x => some (mk x)
  | none => none

/-- One command from two operands. -/
def with2 {α β : Type} (a : Option α) (b : Option β) (mk : α → β → List Instr) : Option (List Instr) :=
  match a, b with
  | some x, some y => some (mk x y)
  | _, _ => none

/-- `DDTROW dx` (R80 a). -/
def ddtRow (dx : Nibble) : List Instr := allNibbles.map fun dy => .ddtrd dx dy

/-- `DDTALL` (R80 b). -/
def ddtAll : List Instr := allNibbles.flatMap ddtRow

/-- `RDSTATUS` (R80 c). -/
def rdStatus : List Instr := [.rdcr 2]

/-- `ATKCFG dp, du, tm, n` (R80 d). -/
def atkCfg (dp du tm n : Word) : List Instr := [.wrcr 3 dp, .wrcr 4 du, .wrcr 5 tm, .wrcr 6 n]

/-- `CNTDUMP` (R80 e). -/
def cntDump : List Instr := (List.range 256).map fun i => .cntrd (BitVec.ofNat 8 i)

/-- The commands a mnemonic with its operands stands for (R79, R80). -/
def commands (m : List Char) (ops : List (List Char)) : Option (List Instr) :=
  match ops with
  | [] =>
    if m = "NOP".toList then some [.nop]
    else if m = "SRST".toList then some [.srst]
    else if m = "KEYGEN".toList then some [.keygen]
    else if m = "LASTKEY".toList then some [.lastkey]
    else if m = "ATK".toList then some [.atk]
    else if m = "DDTALL".toList then some ddtAll
    else if m = "RDSTATUS".toList then some rdStatus
    else if m = "CNTDUMP".toList then some cntDump
    else none
  | [x] =>
    if m = "PERM".toList then with1 (operand 16 x) fun w => [.perm w]
    else if m = "IPERM".toList then with1 (operand 16 x) fun w => [.iperm w]
    else if m = "ENC".toList then with1 (operand 16 x) fun w => [.enc w]
    else if m = "DEC".toList then with1 (operand 16 x) fun w => [.dec w]
    else if m = "SUB".toList then with1 (operand 4 x) fun n => [.sub n]
    else if m = "ISUB".toList then with1 (operand 4 x) fun n => [.isub n]
    else if m = "RDCR".toList then with1 (register x) fun r => [.rdcr r]
    else if m = "CNTRD".toList then with1 (operand 8 x) fun r => [.cntrd r]
    else if m = "DDTROW".toList then with1 (operand 4 x) ddtRow
    else none
  | [x, y] =>
    if m = "WRCR".toList then with2 (register x) (operand 16 y) fun r v => [.wrcr r v]
    else if m = "DDTRD".toList then with2 (operand 4 x) (operand 4 y) fun dx dy => [.ddtrd dx dy]
    else none
  | [dp, du, tm, n] =>
    if m = "ATKCFG".toList then
      match operand 16 dp, operand 16 du, operand 16 tm, operand 16 n with
      | some dp, some du, some tm, some n => some (atkCfg dp du tm n)
      | _, _, _, _ => none
    else none
  | _ => none

/-- The command words one line stands for: none for a blank line, `.word value32` for any word, and no words at all
(a rejected line) where the text is not of the forms of R79. -/
def assembleLine (line : List Char) : Option (List CmdWord) :=
  let body := trim (dropComment line)
  let m := body.takeWhile fun ch => !isBlank ch
  let rest := trim (body.dropWhile fun ch => !isBlank ch)
  let ops := if rest = [] then [] else (splitCommas rest).map trim
  if body = [] then some []
  else if m = ".word".toList then
    match ops with
    | [x] => (operand 32 x).map fun w => [w]
    | _ => none
  else (commands m ops).map fun is => is.map encode

end Sys2Proof.Machine.Asm
end

