-- ==== Sys2Proof/Machine/Ports.lean ====
section
/-!
DEFINITION. The output pins as functions of the state (10_state.md R40; 70_reset_and_hazards.md R240). An output not
named in an FSM state is 0 (43_attack.md R165).
-/

namespace Sys2Proof.Machine

/-- The output pins (R40). -/
structure Outputs where
  cmdReady : Bool
  rspValid : Bool
  rsp : CmdWord
  rngReady : Bool
  cfgFault : Bool
  deriving DecidableEq, Repr

/-- `rng_ready`: the block takes a value in `S_KG` and `S_DRAW` (R40). -/
def FsmState.takesRng : FsmState → Bool
  | .kg => true
  | .draw => true
  | _ => false

/-- The levels on the output pins: the handshake outputs are 0 while `rst` is 1, and `cfg_fault` equals `CF` (R40,
R240). DEDUCED: the data pin `rsp` shows `rspreg` in `S_RSP` (R177) also while `rst` is 1, because R240 and U15 force
only `cmd_ready`, `rsp_valid` and `rng_ready` to 0 there. Log entry 17. -/
def State.outputs (s : State) : Outputs where
  cmdReady := s.fsm == .idle && !s.env.rst
  rspValid := s.fsm == .rsp && !s.env.rst
  rsp := if s.fsm == .rsp then s.rspreg else 0
  rngReady := s.fsm.takesRng && !s.env.rst
  cfgFault := s.cf

end Sys2Proof.Machine
end

