-- ==== Sys2Proof/Safety.lean ====
section
/-!
DEFINITION. What claims are stated in: the invariant of the machine, the states it can reach whatever the host and the
RNG do, the transaction level's view of a state, and lines of the assembler's text.
-/

namespace Sys2Proof.Machine

/-- `CF` is the fault of the configuration (10_state.md R36), and under it no keys and no results exist and no command
is running (60_exceptions.md R222). -/
def State.faultInv (s : State) : Prop :=
  s.cf = s.cfg.fault ∧ (s.cf = true → s.kv = false ∧ s.av = false ∧ (s.fsm = .idle ∨ s.fsm = .rsp))

/-- While `AV = 1` keys exist and `BEST`, `BESTCNT` are the arg-max of the counters (10_state.md R31, R32, R34). -/
def State.resultInv (s : State) : Prop :=
  s.av = true → s.kv = true ∧ (s.best, s.bestCnt) = argMax s.cnt

/-- An `ATK` runs with valid keys and no valid result, and no counter has passed the number `n` of iterations that may
have counted (43_attack.md R159, R180). -/
def State.attackInv (s : State) (n : Nat) : Prop :=
  s.kv = true ∧ s.av = false ∧ ∀ i : Fin 256, (s.cnt[i]).toNat ≤ n

/-- What the working registers satisfy in each FSM state (43_attack.md R166 to R176). -/
def State.fsmInv (s : State) : Prop :=
  match s.fsm with
  | .idle => True
  | .rsp => True
  | .kg => s.work.kidx.toNat ≤ 4
  | .clr => s.kv = true
  | .chk => s.attackInv s.work.it.toNat ∧ s.work.it.toNat ≤ s.iter.toNat
  | .draw => s.attackInv s.work.it.toNat ∧ s.work.it.toNat < s.iter.toNat
  | .q1 => s.attackInv s.work.it.toNat ∧ s.work.it.toNat < s.iter.toNat
  | .q2 => s.attackInv s.work.it.toNat ∧ s.work.it.toNat < s.iter.toNat
  | .filt => s.attackInv s.work.it.toNat ∧ s.work.it.toNat < s.iter.toNat
  | .cand =>
    s.attackInv (s.work.it.toNat + 1) ∧ s.work.it.toNat < s.iter.toNat ∧
      ∀ i : Fin 256, s.work.cand.toNat ≤ i.val → (s.cnt[i]).toNat ≤ s.work.it.toNat
  | .next => s.attackInv (s.work.it.toNat + 1) ∧ s.work.it.toNat < s.iter.toNat
  | .amax =>
    s.attackInv s.iter.toNat ∧
      (s.work.best, s.work.bestCnt) =
        ((List.finRange 256).take s.work.cand.toNat).foldl (argMaxStep s.cnt) (0, 0)

/-- The invariant of the machine, with `TMASK` always one of its six legal values (10_state.md R29). -/
structure State.Inv (s : State) : Prop where
  tmask : legalTmask s.tmask = true
  fault : s.faultInv
  result : s.resultInv
  fsm : s.fsmInv

/-- The states of the machine: from reset, with any configuration and any outside, by steps of the transaction level,
transitions of the FSM level and actions of the outside in any order (00_scope.md R10, R11). -/
inductive Reachable : State → Prop where
  | reset (c : Config) (e : Env) : Reachable (State.resetWith c e)
  | step {s t : State} : Reachable s → step s = .next t → Reachable t
  | tick {s : State} : Reachable s → Reachable s.tick
  | outside {s : State} (a : EnvAction) : Reachable s → Reachable (s.act a)

/-- The working registers that are alive: the key index while `KEYGEN` is held, the iteration count while `ATK` is held,
none while the block is idle or answers, all of them inside a command (10_state.md R37). -/
def State.liveWork (s : State) : Work :=
  match s.fsm with
  | .idle => Work.reset
  | .rsp => Work.reset
  | .kg => { Work.reset with kidx := s.work.kidx }
  | .draw => { Work.reset with it := s.work.it }
  | _ => s.work

/-- The state without its dead working registers: what the transaction level sees (10_state.md R37). -/
def State.view (s : State) : State := { s with work := s.liveWork }

/-- The packed nibbles of the last key at the targeted positions (43_attack.md R184). -/
def truth (m : BitVec 4) (k4 : Word) : Byte := nib k4 (highPos m) ++ nib k4 (lowPos m)

/-! ### Lines of text (30_encoding.md R79) -/

/-- The character of a digit 0 to 15, letters in capitals as in the spec's examples (R79). -/
def Asm.digitText (d : Nat) : Char := "0123456789ABCDEF".toList.getD d '0'

/-- The line of a mnemonic and its operands, laid out as in the spec's examples: one space after the mnemonic, a comma
and a space between operands (R79). -/
def Asm.commandLine (mnemonic : String) (ops : List (List Char)) : List Char :=
  match ops with
  | [] => mnemonic.toList
  | _ => mnemonic.toList ++ ' ' :: [',', ' '].intercalate ops

/-- The words of the commands an operand of `width` bits stands for; none, a rejected line, where the number does not fit
(R79). -/
def Asm.wordsIfFits {width : Nat} (n : Nat) (f : BitVec width → List Instr) : Option (List CmdWord) :=
  if n < 2 ^ width then some ((f (BitVec.ofNat width n)).map encode) else none

end Sys2Proof.Machine
end

