-- ==== Sys2Proof/Certificates/Slice0/Obligations.lean ====
section
/-!
DEFINITION. The statements for the provers, in the order of the spec's files: encoding, refusals, configuration fault,
table commands, cipher, DDT, attack, control registers, frames, unobservable values, invariants, FSM level, reset and
ports, assembler.
-/

open Sys2Proof Sys2Proof.Machine

/-! ## Encoding (30_encoding.md) -/

/-- Every command is read back from its encoding, with every operand at every value (R71, R72, R73, R75). -/
def Obligations.DecodeEncodeRoundTrip : Prop := ∀ i : Instr, decode (encode i) = .ok i

/-- The decoder, written over fields and formats, reads a command from exactly the word that encodes it, and the row of
that mnemonic selects the word by mask and match (R72, R73). -/
def Obligations.DecodeAgreesWithOpcodeTable : Prop :=
  ∀ (w : CmdWord) (i : Instr),
    decode w = .ok i ↔ encode i = w ∧ ∃ r ∈ opcodeTable, r.mnemonic = i.mnemonic ∧ r.selects w = true

/-- A word is illegal exactly when it matches no row of the opcode map, and no word matches two rows (R73, R74). -/
def Obligations.IllegalWordsAreThoseNoRowSelects : Prop :=
  ∀ w : CmdWord,
    ((∃ e, decode w = .error e) ↔ ∀ r ∈ opcodeTable, r.selects w = false) ∧
    ∀ r ∈ opcodeTable, ∀ r' ∈ opcodeTable, r.selects w = true → r'.selects w = true → r = r'

/-- Words written out from R73 and the table of 95_test_vectors.md 2.1 decode to the command they stand for. -/
def Obligations.SampleWordsDecode : Prop :=
  decode 0x00000000 = .ok .nop ∧ decode 0x03061388 = .ok (.wrcr 6 5000) ∧ decode 0x1000000B = .ok (.sub 0xB) ∧
  decode 0x12001234 = .ok (.perm 0x1234) ∧ decode 0x21001234 = .ok (.enc 0x1234) ∧
  decode 0x30B20000 = .ok (.ddtrd 0xB 2) ∧ decode 0x41FF0000 = .ok (.cntrd 255) ∧
  decode 0x04000000 = .error .unknownOp ∧ decode 0x10000010 = .error (.reservedBits "SUB")

/-! ## Stepping and refusing (30_encoding.md, 60_exceptions.md) -/

/-- An idle block whose host presents a word that decodes to `i` runs `i`, having accepted the word: it leaves the
host's list and the host's index advances by one (R38, R78). -/
def Obligations.StepRunsDecodedCommand : Prop :=
  ∀ (s : State) (w : CmdWord) (rest : List CmdWord) (i : Instr),
    s.env.rst = false → s.fsm = .idle → s.env.cmdq = w :: rest → decode w = .ok i →
    step s = exec i { s with env := { s.env with cmdq := rest, cmdIdx := s.env.cmdIdx + 1 } }

/-- An illegal word is accepted like any other, sets `E_ILL` and nothing else, and is answered `0x10000000` (R74,
R212). -/
def Obligations.IllegalWordIsRefused : Prop :=
  ∀ (s : State) (w : CmdWord) (rest : List CmdWord) (e : Illegal),
    s.env.rst = false → s.fsm = .idle → s.env.cmdq = w :: rest → decode w = .error e →
    step s = .next { s with
      eIll := true, fsm := .rsp, rspreg := 0x10000000
      env := { s.env with cmdq := rest, cmdIdx := s.env.cmdIdx + 1 } }

/-- Every command and every step has a next state, in every state (R12). -/
def Obligations.EveryStepHasANextState : Prop :=
  (∀ (i : Instr) (s : State), ∃ t, exec i s = .next t) ∧ ∀ s : State, ∃ t, step s = .next t

/-- What refusing does, for every cause: its one sticky flag is set and the others stay, the response is the code
followed by 28 zeros, nothing else changes and nothing is drawn, and once the host takes the response the block is idle
again (R211). -/
def Obligations.RefusalSetsOneFlagAndAnswersCode : Prop :=
  ∀ (s : State) (e : Cause),
    (∀ e', (s.raise e).sticky e' = (decide (e' = e) || s.sticky e')) ∧
    (s.raise e).rspreg.toNat = e.code.toNat * 2 ^ 28 ∧
    { s.raise e with
      eIll := s.eIll, eCfg := s.eCfg, eDiag := s.eDiag, eArg := s.eArg, eUninit := s.eUninit
      fsm := s.fsm, rspreg := s.rspreg } = s ∧
    (s.env.rst = false → s.env.rspReady = true →
      step (s.raise e) = .next { s.raise e with
        fsm := .idle, env := { s.env with taken := s.env.taken ++ [(s.raise e).rspreg] } })

/-- The check sequence of `S_IDLE`: the first cause that applies, in the order `E_ILL E_CFG E_DIAG E_ARG E_UNINIT`, is
the one refused with, only its flag is set, and where none applies a command other than `SRST` sets and clears no sticky
flag (R219). `refusalOf` is the sequence after the decoding, line by line. -/
def Obligations.RefusalsFollowThePriority : Prop :=
  ∀ (s : State) (w : CmdWord),
    (∀ x, decode w = .error x → s.runWord w = .next (s.raise .ill)) ∧
    (∀ i, decode w = .ok i →
      (∀ e, refusalOf i s = some e → s.runWord w = .next (s.raise e)) ∧
      (refusalOf i s = none → i ≠ .srst →
        ∃ t, s.runWord w = .next t ∧ ∀ e, t.sticky e = s.sticky e)) ∧
    ∀ e e', (s.raise e).sticky e' = (decide (e' = e) || s.sticky e')

/-- Every response word has bits 27:16 zero and a code of at most 5, and a refusal carries no data: the response of every
command executed in any state, and that of every step and every FSM transition that brings a block to its response, an
illegal word's and a resumed `KEYGEN`'s or `ATK`'s among them (R76, R77). -/
def Obligations.ResponseWordsAreWellFormed : Prop :=
  ∀ s t : State,
    (∃ i, exec i s = .next t) ∨ s.fsm ≠ .rsp ∧ (step s = .next t ∨ s.tick = t) →
    t.fsm = .rsp →
    t.rspreg.extractLsb' 16 12 = 0 ∧ (t.rspreg.extractLsb' 28 4).toNat ≤ 5 ∧
      (t.rspreg.extractLsb' 28 4 ≠ 0 → t.rspreg.extractLsb' 0 16 = 0)

/-! ## Configuration fault (60_exceptions.md R222) -/

/-- The configuration is at fault exactly when `SBOX` or `PERM` is not a bijection (R36, R222). -/
def Obligations.FaultMeansATableIsNoBijection : Prop :=
  ∀ c : Config, c.fault = true ↔
    ¬ (Function.Bijective c.sub ∧ Function.Bijective c.dest)

/-- While `CF = 1` every command but `NOP`, `SRST`, `RDCR` is refused with `E_CFG`, code 2 and `STATUS` bit 9, whatever
its operands; these three never are, and no command is while `CF = 0` (R213). -/
def Obligations.FaultRefusesEveryOtherCommand : Prop :=
  ∀ (i : Instr) (s : State),
    (s.cf = true → i ≠ .nop → i ≠ .srst → (∀ reg, i ≠ .rdcr reg) →
      ∃ t : State, exec i s = .next t ∧ t = { s with eCfg := true, fsm := .rsp, rspreg := 0x20000000 } ∧
        t.statusWord.getLsbD 9 = true) ∧
    ((s.cf = false ∨ i = .nop ∨ i = .srst ∨ ∃ reg, i = .rdcr reg) →
      ∀ t : State, exec i s = .next t → t.fsm = .rsp → t.rspreg ≠ 0x20000000)

/-! ## Table commands (40_sbox_perm.md, 42_ddt.md) -/

/-- `SUB` answers the table entry and changes nothing else (R106). -/
def Obligations.SubAnswersTheTableEntry : Prop :=
  ∀ (s : State) (x : Nibble),
    s.cf = false →
    exec (.sub x) s = .next { s with fsm := .rsp, rspreg := (0 : BitVec 28) ++ s.cfg.sbox[x.toNat]'x.isLt }

/-- `ISUB` answers the one `x` whose table entry is the operand, the entry `SINV` of it, and changes nothing else (R101,
R107). -/
def Obligations.IsubAnswersTheUniquePreimage : Prop :=
  ∀ (s : State) (y : Nibble),
    s.cf = false → s.cfg.fault = false →
    (∀ x, s.cfg.sub x = y ↔ x = s.cfg.subInv y) ∧
      exec (.isub y) s = .next { s with fsm := .rsp, rspreg := (0 : BitVec 28) ++ s.cfg.subInv y }

/-- `PERM` answers `Permute` of the operand, the word whose bit `PERM[i]` is bit `i` of the operand, and changes nothing
else (R103, R108). -/
def Obligations.PermMovesEveryBitToItsDestination : Prop :=
  ∀ (s : State) (w : Word),
    s.cf = false → s.cfg.fault = false →
    (∀ i : Fin 16, (s.cfg.permute w).getLsbD (s.cfg.dest i).val = w.getLsbD i.val) ∧
      exec (.perm w) s = .next { s with fsm := .rsp, rspreg := (0 : BitVec 16) ++ s.cfg.permute w }

/-- `IPERM` answers `InvPermute` of the operand, the word whose bit `PINV[j]` is bit `j` of the operand, where
`PINV[PERM[i]] = i`, and changes nothing else (R104, R109). -/
def Obligations.IpermMovesEveryBitBack : Prop :=
  ∀ (s : State) (v : Word),
    s.cf = false → s.cfg.fault = false →
    (∀ i : Fin 16, s.cfg.pinv (s.cfg.dest i) = i) ∧
    (∀ j : Fin 16, (s.cfg.invPermute v).getLsbD (s.cfg.pinv j).val = v.getLsbD j.val) ∧
      exec (.iperm v) s = .next { s with fsm := .rsp, rspreg := (0 : BitVec 16) ++ s.cfg.invPermute v }

/-- For a well-formed configuration the inverse tables and functions invert (R110). -/
def Obligations.TablesAndTheirInversesCancel : Prop :=
  ∀ c : Config, c.fault = false →
    (∀ x, c.subInv (c.sub x) = x) ∧ (∀ y, c.sub (c.subInv y) = y) ∧
    (∀ w, c.invSubWord (c.subWord w) = w) ∧ (∀ w, c.subWord (c.invSubWord w) = w) ∧
    (∀ w, c.invPermute (c.permute w) = w) ∧ ∀ w, c.permute (c.invPermute w) = w

/-- For a well-formed configuration `Permute` and `InvPermute` are linear over XOR and keep the number of 1 bits; 0 and
`0xFFFF` are fixed (R110). -/
def Obligations.PermuteIsLinearAndKeepsPopcount : Prop :=
  ∀ c : Config, c.fault = false →
    (∀ a b, c.permute (a ^^^ b) = c.permute a ^^^ c.permute b) ∧
    (∀ a b, c.invPermute (a ^^^ b) = c.invPermute a ^^^ c.invPermute b) ∧
    (∀ w : Word, (allBits.countP fun i => (c.permute w).getLsbD i.val) = allBits.countP fun i => w.getLsbD i.val) ∧
    (∀ w : Word, (allBits.countP fun i => (c.invPermute w).getLsbD i.val) = allBits.countP fun i => w.getLsbD i.val) ∧
    c.permute 0 = 0 ∧ c.permute 0xFFFF = 0xFFFF

/-- `DDTRD` answers the number of inputs whose output difference is the one asked for, and changes nothing else (R140,
R143). -/
def Obligations.DdtrdAnswersTheDifferenceCount : Prop :=
  ∀ (s : State) (dx dy : Nibble),
    s.cf = false →
    ∃ n : Word,
      n.toNat = (Finset.univ.filter fun x : Fin 16 =>
        s.cfg.sub (BitVec.ofFin x) ^^^ s.cfg.sub (BitVec.ofFin x ^^^ dx) = dy).card ∧
      exec (.ddtrd dx dy) s = .next { s with fsm := .rsp, rspreg := (0 : BitVec 16) ++ n }

/-- The invariants of the difference distribution table: rows sum to 16 for any `SBOX`; row 0; every entry even; and for
a bijective `SBOX` column 0 is empty below row 0 and every column sums to 16 (R141 a to d). -/
def Obligations.DdtRowsAndColumns : Prop :=
  ∀ c : Config,
    (∀ dx, (allNibbles.map (c.ddt dx)).sum = 16) ∧
    c.ddt 0 0 = 16 ∧ (∀ dy, dy ≠ 0 → c.ddt 0 dy = 0) ∧
    (∀ dx dy, c.ddt dx dy % 2 = 0) ∧
    (Function.Bijective c.sub →
      (∀ dx, dx ≠ 0 → c.ddt dx 0 = 0) ∧ ∀ dy, (allNibbles.map fun dx => c.ddt dx dy).sum = 16)

/-! ## The cipher (41_cipher.md) -/

/-- `ENC` answers the cipher of R120 and `DEC` the inverse cipher of R121, both written out unrolled, and neither
changes anything else (R124, R125); `SubWord` and `InvSubWord` in them apply the table and its inverse to each nibble,
each staying in its position (R102). -/
def Obligations.EncAndDecAnswerTheUnrolledCipher : Prop :=
  (∀ (c : Config) (w : Word) (k : Nat), k < 4 →
    nib (c.subWord w) k = c.sub (nib w k) ∧ nib (c.invSubWord w) k = c.subInv (nib w k)) ∧
  ∀ (s : State) (w : Word), s.cf = false → s.kv = true →
    let sw := s.cfg.subWord
    let pm := s.cfg.permute
    let isw := s.cfg.invSubWord
    let ipm := s.cfg.invPermute
    exec (.enc w) s = .next { s with
      fsm := .rsp
      rspreg := (0 : BitVec 16) ++
        (sw (pm (sw (pm (sw (pm (sw (w ^^^ s.keys[0])) ^^^ s.keys[1])) ^^^ s.keys[2])) ^^^ s.keys[3]) ^^^ s.keys[4]) } ∧
    exec (.dec w) s = .next { s with
      fsm := .rsp
      rspreg := (0 : BitVec 16) ++
        (isw (ipm (isw (ipm (isw (ipm (isw (w ^^^ s.keys[4]) ^^^ s.keys[3])) ^^^ s.keys[2])) ^^^ s.keys[1])) ^^^
          s.keys[0]) }

/-- For a well-formed configuration and any five keys, decryption undoes encryption on every word and the other way
round, and encryption is a bijection (R122). -/
def Obligations.CipherRoundTrip : Prop :=
  ∀ (c : Config) (k : Vector Word 5), c.fault = false →
    (∀ p, c.dec k (c.enc k p) = p) ∧ (∀ x, c.enc k (c.dec k x) = x) ∧ Function.Bijective (c.enc k)

/-- `KEYGEN` loads the next five values of the RNG into `K[0]` to `K[4]` in that order, makes the keys valid and the
results of an attack invalid, answers 0, draws exactly five values and changes nothing else but the dead key index, whose
value is the model's (R123; log entry 7). -/
def Obligations.KeygenLoadsTheNextFiveDraws : Prop :=
  ∀ (s : State) (ks : Vector Word 5),
    s.cf = false → (∀ k : Fin 5, s.env.rng.peek k.val = some ks[k]) →
    exec .keygen s = .next { s with
      keys := ks, kv := true, av := false, fsm := .rsp, rspreg := 0
      work := { s.work with kidx := 5 }
      env := { s.env with rng := s.env.rng.after 5 } }

/-- `LASTKEY` answers `K[4]` when the hook is built in and keys exist, and changes nothing else (R126). -/
def Obligations.LastkeyAnswersTheLastSubkey : Prop :=
  ∀ s : State,
    s.cf = false → s.cfg.diagEn = true → s.kv = true →
    exec .lastkey s = .next { s with fsm := .rsp, rspreg := (0 : BitVec 16) ++ s.keys[4] }

/-! ## The attack (43_attack.md) -/

/-- `ATK` on the next `ITER` values of the RNG: every counter ends as the number of drawn plaintexts whose pair passes
the filter and matches that candidate; `BEST` is the lowest candidate with the highest count and is the answer; nothing
else changes but the dead iteration register, and exactly `ITER` values are drawn (R158 to R162). What the dead working
registers hold afterwards, `it` at `ITER` and the others as before, is the model's choice (log entry 7). -/
def Obligations.AtkCountsMatchingPairsAndAnswersArgMax : Prop :=
  ∀ (s : State) (rs : List Word),
    s.cf = false → s.kv = true → rs.length = s.iter.toNat →
    (∀ (k : Nat) (h : k < rs.length), s.env.rng.peek k = some rs[k]) →
    ∃ t : State, exec .atk s = .next t ∧
      (∀ i : Fin 256, (t.cnt[i]).toNat = rs.countP fun r =>
        let c1 := s.cfg.enc s.keys r
        let c2 := s.cfg.enc s.keys (r ^^^ s.deltaP)
        ((c1 ^^^ c2) &&& fmask s.tmask == 0) &&
          partialDiff s.cfg.subInv s.tmask c1 c2 (BitVec.ofFin i) == s.targetDu) ∧
      (∀ i : Fin 256, t.cnt[i] ≤ t.bestCnt) ∧ t.cnt[t.best.toNat]'t.best.isLt = t.bestCnt ∧
      (∀ i : Fin 256, i.val < t.best.toNat → t.cnt[i] < t.bestCnt) ∧
      t = { s with
        cnt := t.cnt, best := t.best, bestCnt := t.bestCnt, av := true
        fsm := .rsp, rspreg := (0 : BitVec 24) ++ t.best
        work := { s.work with it := s.iter }
        env := { s.env with rng := s.env.rng.after s.iter.toNat } }

/-- After a completed `ATK` no counter exceeds the iteration count, so no counter has overflowed (R180). -/
def Obligations.CountersNeverExceedIterations : Prop :=
  ∀ s t : State,
    s.cf = false → s.kv = true → exec .atk s = .next t → t.fsm = .rsp →
    ∀ i : Fin 256, (t.cnt[i]).toNat ≤ s.iter.toNat

/-- The counters depend only on the multiset of drawn plaintexts (R66, R185). -/
def Obligations.CountersIgnoreTheOrderOfDraws : Prop :=
  ∀ (x : AttackIn) (rs rs' : List Word), rs.Perm rs' → x.run rs = x.run rs'

/-- Two key sets that give the same function `Enc` give the same run of `ATK`: the attack sees the keys only through
the oracle (R164). -/
def Obligations.AttackSeesOnlyTheOracle : Prop :=
  ∀ (s t : State) (k' : Vector Word 5),
    (∀ p, s.cfg.enc k' p = s.cfg.enc s.keys p) → exec .atk s = .next t →
    exec .atk { s with keys := k' } = .next { t with keys := k' }

/-- For every legal `TMASK` the positions and the filter mask are those of the table, row by row (R156). -/
def Obligations.TargetedPositionsAndFilterMask : Prop :=
  (∀ m : BitVec 4, legalTmask m = true →
    lowPos m < highPos m ∧ m.getLsbD (lowPos m) = true ∧ m.getLsbD (highPos m) = true ∧
    ∀ k, k < 4 → k ≠ lowPos m → k ≠ highPos m → m.getLsbD k = false) ∧
  (∀ m : BitVec 4, ∀ k, k < 4 → nib (fmask m) k = if m.getLsbD k then 0x0 else 0xF) ∧
  (lowPos 0b0011, highPos 0b0011, fmask 0b0011) = (0, 1, 0xFF00) ∧
  (lowPos 0b0101, highPos 0b0101, fmask 0b0101) = (0, 2, 0xF0F0) ∧
  (lowPos 0b0110, highPos 0b0110, fmask 0b0110) = (1, 2, 0xF00F) ∧
  (lowPos 0b1001, highPos 0b1001, fmask 0b1001) = (0, 3, 0x0FF0) ∧
  (lowPos 0b1010, highPos 0b1010, fmask 0b1010) = (1, 3, 0x0F0F) ∧
  (lowPos 0b1100, highPos 0b1100, fmask 0b1100) = (2, 3, 0x00FF)

/-- A candidate matches exactly when, at each targeted position, the S-box inverses of the two ciphertext nibbles XORed
with its key nibble differ by that nibble of the target, and the target is zero at the excluded positions (R157,
R158). -/
def Obligations.MatchIsDecidedNibbleByNibble : Prop :=
  ∀ (inv : Nibble → Nibble) (m : BitVec 4) (c1 c2 target : Word) (x : Byte), legalTmask m = true →
    (partialDiff inv m c1 c2 x = target ↔
      target &&& fmask m = 0 ∧
      inv (nib c1 (highPos m) ^^^ x.extractLsb' 4 4) ^^^ inv (nib c2 (highPos m) ^^^ x.extractLsb' 4 4) =
        nib target (highPos m) ∧
      inv (nib c1 (lowPos m) ^^^ x.extractLsb' 0 4) ^^^ inv (nib c2 (lowPos m) ^^^ x.extractLsb' 0 4) =
        nib target (lowPos m))

/-- The corner cases of the inputs (R183 a to d). -/
def Obligations.AttackCornerCases : Prop :=
  ∀ (x : AttackIn) (rs : List Word), legalTmask x.tmask = true →
    (x.run [] = zeroCounters ∧ argMax zeroCounters = (0, 0)) ∧
    (x.deltaP = 0 → x.targetDu = 0 → rs.length < 2 ^ 16 →
      (∀ i : Fin 256, ((x.run rs)[i]).toNat = rs.length) ∧ (argMax (x.run rs)).1 = 0) ∧
    (x.deltaP = 0 → x.targetDu ≠ 0 → x.run rs = zeroCounters) ∧
    (x.targetDu &&& fmask x.tmask ≠ 0 → x.run rs = zeroCounters) ∧
    (x.targetDu = 0 → x.deltaP ≠ 0 → Function.Injective x.enc → Function.Injective x.inv →
      x.run rs = zeroCounters)

/-- Why the true key matches a right pair: partial decryption with the key nibbles at the targeted positions gives back
the difference at the input of the last round's S-boxes (R184). -/
def Obligations.TrueKeyMatchesARightPair : Prop :=
  ∀ (c : Config) (m : BitVec 4) (k4 u1 u2 : Word),
    c.fault = false → legalTmask m = true → (u1 ^^^ u2) &&& fmask m = 0 →
    partialDiff c.subInv m (c.subWord u1 ^^^ k4) (c.subWord u2 ^^^ k4) (truth m k4) = u1 ^^^ u2

/-- `CNTRD` answers the counter of its candidate while results exist, and changes nothing else (R163). -/
def Obligations.CntrdAnswersTheCounter : Prop :=
  ∀ (s : State) (cand : Byte),
    s.cf = false → s.av = true →
    exec (.cntrd cand) s = .next { s with
      fsm := .rsp, rspreg := (0 : BitVec 16) ++ s.cnt[cand.toNat]'cand.isLt }

/-- A held `KEYGEN` or `ATK` loses nothing: when values arrive later, the next step brings the block where the command
would have brought it had they been lined up from the start; with no value it stays as it is (R166, R170, R227). -/
def Obligations.HeldCommandResumesWhereItStopped : Prop :=
  ∀ (i : Instr) (s t : State) (vs : List Word),
    s.env.rst = false → s.env.rng.live = false → exec i s = .next t → t.fsm = .kg ∨ t.fsm = .draw →
    step { t with env := { t.env with rng := { t.env.rng with queue := t.env.rng.queue ++ vs } } } =
      exec i { s with env := { s.env with rng := { s.env.rng with queue := s.env.rng.queue ++ vs } } }

/-! ## Control commands and registers (44_control.md, 10_state.md) -/

/-- `NOP` answers 0, in every state, and changes nothing else (R190). -/
def Obligations.NopAnswersZero : Prop :=
  ∀ s : State, exec .nop s = .next { s with fsm := .rsp, rspreg := 0 }

/-- `SRST` puts every register the spec gives a reset value to it, in every state, evaluates `CF` anew, leaves the
outside alone and answers 0; and but for the answer it leaves the block in the state hard reset leaves it in (R192,
R241). The values of the registers the spec gives none (log entry 1) are not stated; those of `TARGET_DU` and `TMASK` the
spec itself marks as general knowledge (log entry 3). -/
def Obligations.SrstLeavesTheHardResetState : Prop :=
  ∀ s : State, ∃ t : State, exec .srst s = .next t ∧
    t.kv = false ∧ t.av = false ∧ (∀ e, t.sticky e = false) ∧ t.deltaP = 0x0B00 ∧ t.targetDu = 0x0606 ∧
    t.tmask = 0b0101 ∧ t.iter = 5000 ∧ t.cf = s.cfg.fault ∧ t.cfg = s.cfg ∧ t.env = s.env ∧
    t.fsm = .rsp ∧ t.rspreg = 0 ∧
    step { s with env := { s.env with rst := true } } =
      .next { t with fsm := .idle, env := { s.env with rst := true } }

/-- `RDCR` of each register that exists and holds a value answers it, zero-extended, in every state, and changes nothing
else, no sticky flag either (R194). -/
def Obligations.RdcrAnswersTheRegister : Prop :=
  ∀ s : State,
    exec (.rdcr 0) s = .next { s with fsm := .rsp, rspreg := 0x00005350 } ∧
    exec (.rdcr 1) s = .next { s with fsm := .rsp, rspreg := if s.cfg.diagEn then 0x00000014 else 0x00000004 } ∧
    exec (.rdcr 2) s = .next { s with fsm := .rsp, rspreg := (0 : BitVec 16) ++ s.statusWord } ∧
    exec (.rdcr 3) s = .next { s with fsm := .rsp, rspreg := (0 : BitVec 16) ++ s.deltaP } ∧
    exec (.rdcr 4) s = .next { s with fsm := .rsp, rspreg := (0 : BitVec 16) ++ s.targetDu } ∧
    exec (.rdcr 5) s = .next { s with fsm := .rsp, rspreg := (0 : BitVec 28) ++ s.tmask } ∧
    exec (.rdcr 6) s = .next { s with fsm := .rsp, rspreg := (0 : BitVec 16) ++ s.iter } ∧
    (s.av = true →
      exec (.rdcr 7) s = .next { s with fsm := .rsp, rspreg := (0 : BitVec 24) ++ s.best } ∧
      exec (.rdcr 8) s = .next { s with fsm := .rsp, rspreg := (0 : BitVec 16) ++ s.bestCnt })

/-- `STATUS`, index 2, shows every flag at its bit and zero elsewhere; reading it changes nothing but the answer, and it
is read-only (R26). -/
def Obligations.StatusShowsEveryFlagAtItsBit : Prop :=
  ∀ s : State,
    (∀ k : Nat, s.statusWord.getLsbD k =
      if k = 0 then s.kv else if k = 1 then s.av else if k = 2 then s.cf
      else if k = 8 then s.sticky .ill else if k = 9 then s.sticky .cfg else if k = 10 then s.sticky .diag
      else if k = 11 then s.sticky .arg else if k = 12 then s.sticky .uninit else false) ∧
    exec (.rdcr 2) s = .next { s with fsm := .rsp, rspreg := (0 : BitVec 16) ++ s.statusWord } ∧
    ∀ v, exec (.wrcr 2 v) s = .next (s.raise (if s.cf then .cfg else .arg))

/-- `CAP`, index 1, holds `ROUNDS` in bits 3:0, `DIAG_EN` in bit 4 and zeros above, in every state, and is read-only
(R25). -/
def Obligations.CapShowsRoundsAndDiagEn : Prop :=
  ∀ s : State,
    (s.capWord.extractLsb' 0 4).toNat = 4 ∧ s.capWord.getLsbD 4 = s.cfg.diagEn ∧ s.capWord.extractLsb' 5 11 = 0 ∧
    exec (.rdcr 1) s = .next { s with fsm := .rsp, rspreg := (0 : BitVec 16) ++ s.capWord } ∧
    ∀ v, exec (.wrcr 1 v) s = .next (s.raise (if s.cf then .cfg else .arg))

/-- Where a command needs something that does not exist it is refused, with its one flag set, the code written out and
nothing else changed, in this order: `LASTKEY` without the hook with `E_DIAG`, code 3, whether or not keys exist; `RDCR`
of an index that names no register with `E_ARG`, code 4; `ENC`, `DEC`, `ATK` and `LASTKEY` without keys, and `CNTRD`,
`RDCR BEST`, `RDCR BESTCNT` without results, with `E_UNINIT`, code 5 (R77, R126, R194, R214 to R216). -/
def Obligations.MissingThingsAreRefused : Prop :=
  ∀ (s : State) (w : Word) (cand reg : Byte),
    let diag : State := { s with eDiag := true, fsm := .rsp, rspreg := 0x30000000 }
    let arg : State := { s with eArg := true, fsm := .rsp, rspreg := 0x40000000 }
    let uninit : State := { s with eUninit := true, fsm := .rsp, rspreg := 0x50000000 }
    (9 ≤ reg.toNat → exec (.rdcr reg) s = .next arg) ∧
    (s.av = false → exec (.rdcr 7) s = .next uninit ∧ exec (.rdcr 8) s = .next uninit) ∧
    (s.cf = false →
      (s.cfg.diagEn = false → exec .lastkey s = .next diag) ∧
      (s.kv = false →
        exec (.enc w) s = .next uninit ∧ exec (.dec w) s = .next uninit ∧ exec .atk s = .next uninit ∧
        (s.cfg.diagEn = true → exec .lastkey s = .next uninit)) ∧
      (s.av = false → exec (.cntrd cand) s = .next uninit))

/-- `WRCR` writes the register named, answers 0 and changes nothing else; for `TMASK` each of the six legal values
(R195, R29). -/
def Obligations.WrcrWritesTheNamedRegister : Prop :=
  ∀ (s : State) (v : Word), s.cf = false →
    exec (.wrcr 3 v) s = .next { s with deltaP := v, fsm := .rsp, rspreg := 0 } ∧
    exec (.wrcr 4 v) s = .next { s with targetDu := v, fsm := .rsp, rspreg := 0 } ∧
    exec (.wrcr 6 v) s = .next { s with iter := v, fsm := .rsp, rspreg := 0 } ∧
    ∀ m : BitVec 4, m ∈ [0b0011#4, 0b0101#4, 0b0110#4, 0b1001#4, 0b1010#4, 0b1100#4] →
      exec (.wrcr 5 ((0 : BitVec 12) ++ m)) s = .next { s with tmask := m, fsm := .rsp, rspreg := 0 }

/-- `WRCR` to a read-only or missing register, and `WRCR TMASK` with any data but the six legal values, is refused with
`E_ARG`; no register changes (R195, R29). -/
def Obligations.WrcrRefusesIllegalWrites : Prop :=
  ∀ (s : State) (reg : Byte) (v : Word), s.cf = false →
    (reg.toNat ∉ [3, 4, 5, 6] ∨ reg.toNat = 5 ∧ v.toNat ∉ [3, 5, 6, 9, 10, 12]) →
    exec (.wrcr reg v) s = .next { s with eArg := true, fsm := .rsp, rspreg := 0x40000000 }

/-! ## Frames -/

/-- The keys and `KV` are written by `KEYGEN` and `SRST` only (R21, R22, R128). -/
def Obligations.OnlyKeygenAndSrstWriteKeys : Prop :=
  ∀ (i : Instr) (s t : State),
    i ≠ .keygen → i ≠ .srst → exec i s = .next t → t.keys = s.keys ∧ t.kv = s.kv

/-- The counters, `BEST` and `BESTCNT` are written by `ATK` and `SRST` only, and `AV` by these and `KEYGEN` (R33,
R34). -/
def Obligations.OnlyAtkAndSrstWriteResults : Prop :=
  ∀ (i : Instr) (s t : State),
    i ≠ .atk → i ≠ .srst → exec i s = .next t →
    t.cnt = s.cnt ∧ t.best = s.best ∧ t.bestCnt = s.bestCnt ∧ (i ≠ .keygen → t.av = s.av)

/-- The attack registers are written by `WRCR` and `SRST` only, `CF` by `SRST` only, the configuration by nothing
(R27 to R30, R36, R39). -/
def Obligations.OnlyWrcrAndSrstWriteAttackRegisters : Prop :=
  ∀ (i : Instr) (s t : State), exec i s = .next t →
    t.cfg = s.cfg ∧ (i ≠ .srst → t.cf = s.cf) ∧
    (i ≠ .srst → (∀ reg v, i ≠ .wrcr reg v) →
      t.deltaP = s.deltaP ∧ t.targetDu = s.targetDu ∧ t.tmask = s.tmask ∧ t.iter = s.iter)

/-- Of the outside a command changes only the RNG's position, and only `KEYGEN`, by at most 5 values, and `ATK`, by at
most `ITER`, change that (R11, R59, R62). -/
def Obligations.OnlyKeygenAndAtkDraw : Prop :=
  ∀ (i : Instr) (s t : State), exec i s = .next t →
    (∃ n, t.env = { s.env with rng := s.env.rng.after n } ∧
      (i ≠ .keygen → i ≠ .atk → n = 0) ∧ (i = .keygen → n ≤ 5) ∧ (i = .atk → n ≤ s.iter.toNat))

/-! ## What nothing can observe -/

/-- While `KV = 0` nothing a command does depends on what the key registers hold: from two states that differ only
there, its next states differ at most there, with the same response (R22). -/
def Obligations.KeysAreUnobservableWithoutKv : Prop :=
  ∀ (i : Instr) (s : State) (k' : Vector Word 5), s.kv = false →
    ∃ t k'', exec i s = .next t ∧ exec i { s with keys := k' } = .next { t with keys := k'' }

/-- While `AV = 0` nothing a command does depends on what the counters, `BEST` and `BESTCNT` hold (R34). -/
def Obligations.ResultsAreUnobservableWithoutAv : Prop :=
  ∀ (i : Instr) (s : State) (n : Counters) (b : Byte) (bc : Word), s.av = false →
    ∃ t n' b' bc', exec i s = .next t ∧
      exec i { s with cnt := n, best := b, bestCnt := bc } = .next { t with cnt := n', best := b', bestCnt := bc' }

/-! ## Invariants -/

/-- The invariant holds after reset, whatever the configuration and the outside. -/
def Obligations.InvariantHoldsAtReset : Prop := ∀ (c : Config) (e : Env), (State.resetWith c e).Inv

/-- Every step keeps the invariant: `TMASK` stays legal, `CF` stays the fault of the configuration, no keys or results
exist under it, valid results are the arg-max of the counters, and no counter passes the iteration count. -/
def Obligations.StepKeepsTheInvariant : Prop := ∀ s t : State, s.Inv → step s = .next t → t.Inv

/-- Every FSM transition keeps the invariant. -/
def Obligations.TickKeepsTheInvariant : Prop := ∀ s : State, s.Inv → s.tick.Inv

/-- Every state the machine can reach, whatever the host and the RNG do, meets the invariant. -/
def Obligations.ReachableStatesMeetTheInvariant : Prop := ∀ s : State, Reachable s → s.Inv

/-! ## The FSM level (43_attack.md) -/

/-- Equivalence of the levels: what a step of the transaction level does, a number of FSM transitions does, up to the
dead working registers; so `KEYGEN` and `ATK` have the same keys, counters, results, flags, response and draws at both
levels (R178). -/
def Obligations.FsmRefinesTheTransactionLevel : Prop :=
  ∀ s t : State, s.Inv → step s = .next t → ∃ n, (State.ticks n s).view = t.view

/-- `S_CAND` and `S_AMAX` are each left after exactly 256 visits (R179). -/
def Obligations.CandidateScansTakeExactly256Visits : Prop :=
  ∀ s : State, s.env.rst = false → s.work.cand = 0 →
    (s.fsm = .cand → (∀ n, n < 256 → (State.ticks n s).fsm = .cand) ∧ (State.ticks 256 s).fsm = .next) ∧
    (s.fsm = .amax → (∀ n, n < 256 → (State.ticks n s).fsm = .amax) ∧ (State.ticks 256 s).fsm = .rsp)

/-- An accepted word always reaches its response at the FSM level, and the block is idle again once the response is
taken, provided the RNG presents every value asked for and the host takes the response (R179). The premise `live` is the
RNG's liveness, an assumption on the environment. -/
def Obligations.AcceptedCommandsAreAnswered : Prop :=
  ∀ (s : State) (w : CmdWord) (rest : List CmdWord),
    s.env.rst = false → s.fsm = .idle → s.env.cmdq = w :: rest → s.env.rng.live = true →
    ∃ n, (State.ticks n s).fsm = .rsp ∧
      (s.env.rspReady = true → (State.ticks (n + 1) s).fsm = .idle ∧
        (State.ticks (n + 1) s).env.taken = s.env.taken ++ [(State.ticks n s).rspreg])

/-! ## Reset, holds and ports (70_reset_and_hazards.md, 10_state.md) -/

/-- The values the spec gives for reset, for every configuration, with the outputs once `rst` is 0 (R42). Those of
`TARGET_DU` and `TMASK` the spec itself marks as general knowledge (log entry 3). -/
def Obligations.ResetLeavesTheSpecifiedValues : Prop :=
  ∀ (c : Config) (e : Env), e.rst = false →
    let s := State.resetWith c e
    s.kv = false ∧ s.av = false ∧ (∀ x, s.sticky x = false) ∧ s.deltaP = 0x0B00 ∧ s.targetDu = 0x0606 ∧
    s.tmask = 0b0101 ∧ s.iter = 5000 ∧ s.cf = c.fault ∧ s.fsm = .idle ∧
    s.statusWord = (if c.fault then 0x0004 else 0x0000) ∧
    s.outputs = ⟨true, false, 0, false, c.fault⟩

/-- Hard reset overrides everything, at both levels and in every state, so also inside a command: the reset state, no
response, and the values already drawn stay drawn; the handshake outputs are 0 (R240, R243). The reset state is named as
a whole; of the registers the spec gives no value it holds the model's choice (log entries 1 and 2). -/
def Obligations.HardResetOverridesEverything : Prop :=
  ∀ s : State, s.env.rst = true →
    step s = .next (State.resetWith s.cfg s.env) ∧ s.tick = State.resetWith s.cfg s.env ∧
    s.outputs.cmdReady = false ∧ s.outputs.rspValid = false ∧ s.outputs.rngReady = false ∧ s.outputs.cfgFault = s.cf

/-- With `rst` at 0 the pins show the FSM state: `cmd_ready` is 1 in `S_IDLE` only, `rng_ready` in `S_KG` and `S_DRAW`
only, `rsp_valid` in `S_RSP` only, with `rsp` the waiting response there and 0 elsewhere, and `cfg_fault` is `CF`; a
transition moves a word only where the block's side of that handshake is 1, and then exactly the one presented (R40,
R59, R165, R166, R170, R177). The block waits, unchanged, at a draw while the RNG presents nothing, at a response the
host does not take, and idle while no word is presented; and an answered block hands exactly its response over (R227,
R177, R41). -/
def Obligations.HoldsChangeNothing : Prop :=
  (∀ s : State, s.env.rst = false →
    let o := s.outputs
    let e := s.tick.env
    (o.cmdReady = true ↔ s.fsm = .idle) ∧ (o.rngReady = true ↔ s.fsm = .kg ∨ s.fsm = .draw) ∧
    (o.rspValid = true ↔ s.fsm = .rsp) ∧ o.rsp = (if s.fsm = .rsp then s.rspreg else 0) ∧ o.cfgFault = s.cf ∧
    (o.cmdReady = false → e.cmdq = s.env.cmdq ∧ e.cmdIdx = s.env.cmdIdx) ∧
    (o.rngReady = false → e.rng = s.env.rng) ∧
    (o.rspValid = false → e.taken = s.env.taken) ∧
    (o.cmdReady = true → ∀ w rest, s.env.cmdq = w :: rest → e.cmdq = rest ∧ e.cmdIdx = s.env.cmdIdx + 1) ∧
    (o.rngReady = true → s.env.rng.peek 0 ≠ none → e.rng = s.env.rng.after 1)) ∧
  ∀ s : State, s.env.rst = false → s.fsmInv →
    ((s.fsm = .kg ∨ s.fsm = .draw) → s.env.rng.peek 0 = none → step s = .next s ∧ s.tick = s) ∧
    (s.fsm = .idle → s.env.cmdq = [] → step s = .next s ∧ s.tick = s) ∧
    (s.fsm = .rsp → s.env.rspReady = false → step s = .next s ∧ s.tick = s) ∧
    (s.fsm = .rsp → s.env.rspReady = true →
      step s = .next { s with fsm := .idle, env := { s.env with taken := s.env.taken ++ [s.rspreg] } })

/-! ## The assembler (30_encoding.md) -/

/-- A line the assembler accepts, unless it is a `.word` line, gives only words of commands (R79). -/
def Obligations.AssembledWordsAreCommands : Prop :=
  ∀ (line : List Char) (ws : List CmdWord),
    Asm.assembleLine line = some ws →
    ((Asm.trim (Asm.dropComment line)).takeWhile fun ch => !Asm.isBlank ch) ≠ ".word".toList →
    ∀ w ∈ ws, ∃ i, decode w = .ok i

/-- Which words a line stands for, over all numbers and all mnemonics: the value of a number in each base; each command
with its operands, rejected where one does not fit its field; the register names; the pseudo-commands; `.word`; and text
after `;`, which stands for nothing (R79, R80, R82). Lines are laid out, and digits written, as in the spec's examples;
what else the model accepts is its choice (log entry 14). -/
def Obligations.LinesStandForTheirWords : Prop :=
  let line := fun (m : String) (ops : List (List Char)) => Asm.assembleLine (Asm.commandLine m ops)
  (∀ b pre, (b, pre) ∈ [(10, []), (16, ['0', 'x']), (2, ['0', 'b'])] →
    ∀ ds : List Nat, ds ≠ [] → (∀ d ∈ ds, d < b) →
      Asm.number (pre ++ ds.map Asm.digitText) = some (ds.foldl (fun n d => b * n + d) 0)) ∧
  (∀ m i, (m, i) ∈ [("NOP", Instr.nop), ("SRST", .srst), ("KEYGEN", .keygen), ("LASTKEY", .lastkey), ("ATK", .atk)] →
    line m [] = some [encode i]) ∧
  (∀ (x : List Char) (n : Nat), Asm.number x = some n →
    (∀ m mk, (m, mk) ∈ [("PERM", Instr.perm), ("IPERM", .iperm), ("ENC", .enc), ("DEC", .dec)] →
      line m [x] = Asm.wordsIfFits n fun v => [mk v]) ∧
    (∀ m mk, (m, mk) ∈ [("SUB", Instr.sub), ("ISUB", .isub)] → line m [x] = Asm.wordsIfFits n fun v => [mk v]) ∧
    (∀ m mk, (m, mk) ∈ [("RDCR", Instr.rdcr), ("CNTRD", .cntrd)] → line m [x] = Asm.wordsIfFits n fun v => [mk v]) ∧
    line "DDTROW" [x] = Asm.wordsIfFits n (fun dx => allNibbles.map fun dy => .ddtrd dx dy) ∧
    line ".word" [x] = (if n < 2 ^ 32 then some [BitVec.ofNat 32 n] else none) ∧
    ∀ (y : List Char) (k : Nat), Asm.number y = some k →
      line "WRCR" [x, y] =
        (if n < 2 ^ 8 then Asm.wordsIfFits k fun v => [.wrcr (BitVec.ofNat 8 n) v] else none) ∧
      line "DDTRD" [x, y] =
        (if n < 2 ^ 4 then Asm.wordsIfFits k fun dy => [.ddtrd (BitVec.ofNat 4 n) dy] else none)) ∧
  (∀ (name : String) (reg : Byte),
    (name, reg) ∈ [("ID", 0), ("CAP", 1), ("STATUS", 2), ("DELTA_P", 3), ("TARGET_DU", 4), ("TMASK", 5), ("ITER", 6),
      ("BEST", 7), ("BESTCNT", 8)] →
    line "RDCR" [name.toList] = some [encode (.rdcr reg)] ∧
    ∀ (y : List Char) (k : Nat), Asm.number y = some k →
      line "WRCR" [name.toList, y] = Asm.wordsIfFits k fun v => [.wrcr reg v]) ∧
  (∀ (x y z u : List Char) (dp du tm n : Nat),
    Asm.number x = some dp → Asm.number y = some du → Asm.number z = some tm → Asm.number u = some n →
    line "ATKCFG" [x, y, z, u] =
      (if dp < 2 ^ 16 ∧ du < 2 ^ 16 ∧ tm < 2 ^ 16 then Asm.wordsIfFits n fun v =>
        [.wrcr 3 (BitVec.ofNat 16 dp), .wrcr 4 (BitVec.ofNat 16 du), .wrcr 5 (BitVec.ofNat 16 tm), .wrcr 6 v]
      else none)) ∧
  line "DDTALL" [] = some (allNibbles.flatMap fun dx => allNibbles.map fun dy => encode (.ddtrd dx dy)) ∧
  line "RDSTATUS" [] = some [0x02020000] ∧
  line "CNTDUMP" [] = some ((List.range 256).map fun k => encode (.cntrd (BitVec.ofNat 8 k))) ∧
  ∀ text comment, Asm.assembleLine (text ++ ';' :: comment) = Asm.assembleLine text
end

