-- ==== Sys2Proof/Laws/Asm.lean ====
section
/-!
SUPPORT. Lines of text: numbers and names hold no blank, comma or semicolon, and so a line laid out as
`Asm.commandLine` is read as its mnemonic with its operands (30_encoding.md R79).
-/

namespace Sys2Proof.Machine.Asm

/-- A piece of text that nothing in a line breaks up: not empty, and without blanks, commas and semicolons. -/
def Plain (l : List Char) : Prop := l ≠ [] ∧ ∀ ch ∈ l, isBlank ch = false ∧ ch ≠ ',' ∧ ch ≠ ';'

/-- The check of `Plain` as a computation, for the mnemonics and names that are literals. -/
theorem plain_of_all {l : List Char}
    (h : (!l.isEmpty && l.all fun ch => !isBlank ch && ch != ',' && ch != ';') = true) : Plain l := by
  simp only [Bool.and_eq_true, List.all_eq_true, Bool.not_eq_true', List.isEmpty_eq_false_iff, bne_iff_ne] at h
  exact ⟨h.1, fun ch hc => ⟨(h.2 ch hc).1.1, (h.2 ch hc).1.2, (h.2 ch hc).2⟩⟩

/-! ### Numbers -/

theorem digits_isSome {base acc n : Nat} {l : List Char} (h : digits base acc l = some n) :
    ∀ ch ∈ l, (digit ch).isSome := by
  induction l generalizing acc with
  | nil => simp
  | cons c l ih =>
    unfold digits at h
    split at h
    · rename_i d hd
      split at h
      · simpa [hd] using ih h
      · cases h
    · cases h

/-- A digit is no blank, comma or semicolon. -/
theorem digit_plain {ch : Char} (h : (digit ch).isSome) : isBlank ch = false ∧ ch ≠ ',' ∧ ch ≠ ';' := by
  refine ⟨?_, ?_, ?_⟩
  · unfold isBlank
    rw [Bool.or_eq_false_iff, beq_eq_false_iff_ne, beq_eq_false_iff_ne]
    constructor <;> rintro rfl <;> exact absurd h (by decide)
  all_goals rintro rfl; exact absurd h (by decide)

/-- The text of a number is plain (R79). -/
theorem number_plain {x : List Char} {n : Nat} (h : number x = some n) : Plain x := by
  unfold number at h
  split at h
  · cases h
  · cases h
  · cases h
  · rename_i ds _
    refine ⟨by simp, fun ch hc => ?_⟩
    simp only [List.mem_cons] at hc
    rcases hc with rfl | rfl | hc
    · decide
    · decide
    · exact digit_plain (digits_isSome h ch hc)
  · rename_i ds _
    refine ⟨by simp, fun ch hc => ?_⟩
    simp only [List.mem_cons] at hc
    rcases hc with rfl | rfl | hc
    · decide
    · decide
    · exact digit_plain (digits_isSome h ch hc)
  · rename_i ds h0 _ _ _ _
    exact ⟨h0, fun ch hc => digit_plain (digits_isSome h ch hc)⟩

/-- No register name is the text of a number (R82). -/
theorem registerName_number {x : List Char} {n : Nat} (h : number x = some n) : registerName x = none := by
  have hn : ∀ l : List Char, number l = none → ¬ x = l := fun l hl hx => by rw [hx, hl] at h; cases h
  unfold registerName
  simp only [hn _ (show number "ID".toList = none by decide), hn _ (show number "CAP".toList = none by decide),
    hn _ (show number "STATUS".toList = none by decide), hn _ (show number "DELTA_P".toList = none by decide),
    hn _ (show number "TARGET_DU".toList = none by decide), hn _ (show number "TMASK".toList = none by decide),
    hn _ (show number "ITER".toList = none by decide), hn _ (show number "BEST".toList = none by decide),
    hn _ (show number "BESTCNT".toList = none by decide), if_false]

/-- An operand that is a number: its value where it fits, rejected where it does not (R79). -/
theorem operand_number {width n : Nat} {x : List Char} (h : number x = some n) :
    operand width x = if n < 2 ^ width then some (BitVec.ofNat width n) else none := by
  unfold operand; rw [h]

theorem register_number {n : Nat} {x : List Char} (h : number x = some n) : register x = operand 8 x := by
  unfold register; rw [registerName_number h]

/-- One command from one operand that is a number. -/
theorem with1_number {width n : Nat} {x : List Char} (h : number x = some n) (f : BitVec width → List Instr) :
    (with1 (operand width x) f).map (fun is => is.map encode) = wordsIfFits n f := by
  rw [operand_number h, wordsIfFits]; split <;> rfl

/-- One command from two operands of which the second is a number. -/
theorem with2_number {α : Type} {a : Option α} {width n : Nat} {x : List Char} (h : number x = some n)
    (f : α → BitVec width → List Instr) :
    (with2 a (operand width x) f).map (fun is => is.map encode) =
      match a with
      | some a => wordsIfFits n (f a)
      | none => none := by
  rw [operand_number h]
  cases a
  · rfl
  · simp only [wordsIfFits]; split <;> rfl

/-- The value of a list of digits of a base (R79). -/
theorem digits_digitText {b : Nat} (hb : b ≤ 16) {ds : List Nat} (h : ∀ d ∈ ds, d < b) (acc : Nat) :
    digits b acc (ds.map digitText) = some (ds.foldl (fun n d => b * n + d) acc) := by
  have hd : ∀ d < 16, digit (digitText d) = some d := by decide
  induction ds generalizing acc with
  | nil => rfl
  | cons d ds ih =>
    have hdb := h d (by simp)
    rw [List.map_cons, digits, hd d (by omega)]
    simp only [hdb, if_true]
    exact ih (fun e he => h e (by simp [he])) _

/-! ### Lines -/

theorem trim_of_ends {l : List Char} (h : ∀ ch, l.head? = some ch → isBlank ch = false)
    (h' : ∀ ch, l.getLast? = some ch → isBlank ch = false) : trim l = l := by
  have drop : ∀ r : List Char, (∀ ch, r.head? = some ch → isBlank ch = false) → r.dropWhile isBlank = r := by
    rintro (_ | ⟨c, r⟩) hr
    · rfl
    · rw [List.dropWhile_cons_of_neg]; simp [hr c rfl]
  unfold trim
  rw [drop l h, drop l.reverse (by simpa using h'), List.reverse_reverse]

theorem trim_plain {l : List Char} (h : Plain l) : trim l = l :=
  trim_of_ends (fun ch hc => (h.2 ch (List.mem_of_mem_head? hc)).1)
    fun ch hc => (h.2 ch (List.mem_of_getLast? hc)).1

theorem trim_blank (l : List Char) : trim (' ' :: l) = trim l := rfl

theorem splitCommas_ne_nil : ∀ l : List Char, splitCommas l ≠ []
  | [] => by simp [splitCommas]
  | c :: l => by
    rw [splitCommas]
    split
    · simp
    · split <;> simp

theorem splitCommas_plain {l : List Char} (h : ∀ ch ∈ l, ch ≠ ',') : splitCommas l = [l] := by
  induction l with
  | nil => rfl
  | cons c l ih =>
    rw [splitCommas, ih fun ch hc => h ch (by simp [hc])]
    simp [h c (by simp)]

theorem splitCommas_append {l : List Char} (h : ∀ ch ∈ l, ch ≠ ',') (r : List Char) :
    splitCommas (l ++ ',' :: r) = l :: splitCommas r := by
  induction l with
  | nil =>
    rw [List.nil_append, splitCommas]
    obtain ⟨p, ps, hs⟩ := List.exists_cons_of_ne_nil (splitCommas_ne_nil r)
    simp [hs]
  | cons c l ih =>
    rw [List.cons_append, splitCommas, ih fun ch hc => h ch (by simp [hc])]
    simp [h c (by simp)]

/-- Operands laid out with commas and spaces are found again. -/
theorem splitCommas_intercalate {x : List Char} {ops : List (List Char)} (h : ∀ o ∈ x :: ops, Plain o) :
    (splitCommas ([',', ' '].intercalate (x :: ops))).map trim = x :: ops := by
  induction ops generalizing x with
  | nil =>
    have hx := h x (by simp)
    rw [List.intercalate_singleton, splitCommas_plain fun ch hc => (hx.2 ch hc).2.1]
    simp [trim_plain hx]
  | cons y ops ih =>
    have hx := h x (by simp)
    have e : [',', ' '].intercalate (x :: y :: ops) = x ++ ',' :: ' ' :: [',', ' '].intercalate (y :: ops) := by
      simp [List.intercalate_cons_cons]
    have hs : ∀ r : List Char, (splitCommas (' ' :: r)).map trim = (splitCommas r).map trim := fun r => by
      obtain ⟨p, ps, hp⟩ := List.exists_cons_of_ne_nil (splitCommas_ne_nil r)
      rw [splitCommas, hp]
      simp [trim_blank]
    rw [e, splitCommas_append fun ch hc => (hx.2 ch hc).2.1, List.map_cons, trim_plain hx, hs,
      ih fun o ho => h o (by simp [ho])]

/-- Where operands laid out in a line begin and end, and that they hold no semicolon. -/
theorem intercalate_ends {x : List Char} {ops : List (List Char)} (h : ∀ o ∈ x :: ops, Plain o) :
    let r := [',', ' '].intercalate (x :: ops)
    r ≠ [] ∧ (∀ ch, r.head? = some ch → isBlank ch = false) ∧ (∀ ch, r.getLast? = some ch → isBlank ch = false) ∧
      ∀ ch ∈ r, ch ≠ ';' := by
  induction ops generalizing x with
  | nil =>
    obtain ⟨h0, hx⟩ := h x (by simp)
    simp only [List.intercalate_singleton]
    exact ⟨h0, fun ch hc => (hx ch (List.mem_of_mem_head? hc)).1, fun ch hc => (hx ch (List.mem_of_getLast? hc)).1,
      fun ch hc => (hx ch hc).2.2⟩
  | cons y ops ih =>
    obtain ⟨h0, hx⟩ := h x (by simp)
    obtain ⟨i0, -, i2, i3⟩ := ih (x := y) fun o ho => h o (List.mem_cons_of_mem x ho)
    obtain ⟨c, x, rfl⟩ := List.exists_cons_of_ne_nil h0
    simp only [List.intercalate_cons_cons]
    refine ⟨by simp, fun ch hc => ?_, fun ch hc => ?_, fun ch hc => ?_⟩
    · simp at hc
      exact (hx ch (by simp [hc])).1
    · rw [List.getLast?_append, List.getLast?_eq_some_getLast i0] at hc
      exact i2 ch (by rw [List.getLast?_eq_some_getLast i0]; simpa using hc)
    · simp only [List.mem_append, List.mem_cons, List.not_mem_nil, or_false] at hc
      rcases hc with (hc | rfl | rfl) | hc
      · exact (hx ch (by simpa using hc)).2.2
      · decide
      · decide
      · exact i3 ch hc

/-- A line laid out as `commandLine` is read as its mnemonic with its operands (R79). -/
theorem assembleLine_commandLine {m : String} {ops : List (List Char)} (hm : Plain m.toList)
    (hw : m.toList ≠ ".word".toList) (h : ∀ o ∈ ops, Plain o) :
    assembleLine (commandLine m ops) = (commands m.toList ops).map fun is => is.map encode := by
  obtain ⟨m0, hm1⟩ := hm
  have hp : ∀ ch ∈ m.toList, (!isBlank ch) = true := fun ch hc => by simp [(hm1 ch hc).1]
  rcases ops with _ | ⟨x, ops⟩
  · have e : commandLine m [] = m.toList := rfl
    have hd : dropComment m.toList = m.toList :=
      List.takeWhile_eq_self_iff.2 fun ch hc => by simpa using (hm1 ch hc).2.2
    have h1 : m.toList.takeWhile (fun ch => !isBlank ch) = m.toList := List.takeWhile_eq_self_iff.2 hp
    have h2 : m.toList.dropWhile (fun ch => !isBlank ch) = [] := List.dropWhile_eq_nil_iff.2 hp
    simp only [assembleLine, e, hd, trim_plain ⟨m0, hm1⟩, h1, h2, m0, hw, if_false]
    rfl
  · obtain ⟨r0, r1, r2, r3⟩ := intercalate_ends h
    have hs := splitCommas_intercalate h
    obtain ⟨r, hr⟩ : ∃ r, r = [',', ' '].intercalate (x :: ops) := ⟨_, rfl⟩
    have e : commandLine m (x :: ops) = m.toList ++ ' ' :: r := by rw [hr]; rfl
    rw [← hr] at r0 r1 r2 r3 hs
    have hd : dropComment (m.toList ++ ' ' :: r) = m.toList ++ ' ' :: r := by
      refine List.takeWhile_eq_self_iff.2 fun ch hc => ?_
      simp only [List.mem_append, List.mem_cons] at hc
      rcases hc with hc | rfl | hc
      · simpa using (hm1 ch hc).2.2
      · decide
      · simpa using r3 ch hc
    have ht : trim (m.toList ++ ' ' :: r) = m.toList ++ ' ' :: r := by
      refine trim_of_ends (fun ch hc => ?_) fun ch hc => ?_
      · obtain ⟨c, l, hl⟩ := List.exists_cons_of_ne_nil m0
        rw [hl] at hc hm1
        simp at hc
        exact (hm1 ch (by simp [hc])).1
      · rw [List.getLast?_append, List.getLast?_cons, List.getLast?_eq_some_getLast r0] at hc
        exact r2 ch (by rw [List.getLast?_eq_some_getLast r0]; simpa using hc)
    have h1 : (m.toList ++ ' ' :: r).takeWhile (fun ch => !isBlank ch) = m.toList := by
      rw [List.takeWhile_append_of_pos hp]; simp [isBlank]
    have h2 : (m.toList ++ ' ' :: r).dropWhile (fun ch => !isBlank ch) = ' ' :: r := by
      rw [List.dropWhile_append_of_pos hp]; simp [isBlank]
    have hne : m.toList ++ ' ' :: r ≠ [] := by simp
    simp only [assembleLine, e, hd, ht, h1, h2, trim_blank, trim_of_ends r1 r2, hs, hne, r0, hw, if_false]

end Sys2Proof.Machine.Asm
end

