-- ==== Sys2Proof/Laws/Tables.lean ====
section
/-!
SUPPORT. The lists of all nibbles and bit positions, the tables as functions, the bits of `Permute` and `InvPermute`,
and nibbles of words (40_sbox_perm.md R100 to R104; 00_scope.md R14). Nothing here assumes a bijection.
-/

namespace Sys2Proof

theorem mem_allNibbles (x : Nibble) : x ∈ allNibbles := by revert x; decide

theorem mem_allBits (i : Fin 16) : i ∈ allBits := by revert i; decide

theorem nodup_allNibbles : allNibbles.Nodup := by decide

theorem nodup_allBits : allBits.Nodup := by decide

theorem sbox_toList (c : Config) : c.sbox.toList = allNibbles.map c.sub := by
  apply List.ext_getElem
  · simp [allNibbles]
  · intro i h1 h2
    simp only [Vector.length_toList] at h1
    interval_cases i <;> rfl

theorem perm_toList (c : Config) : c.perm.toList = allBits.map c.dest := by
  apply List.ext_getElem
  · simp [allBits]
  · intro i h1 h2
    simp only [Vector.length_toList] at h1
    interval_cases i <;> rfl

/-- What a filter keeps of a list of everything without repeats, where one element passes. -/
theorem filter_eq_singleton {α : Type} {l : List α} (hl : l.Nodup) (hm : ∀ x, x ∈ l) {p : α → Bool} {a : α}
    (ha : ∀ x, p x = true ↔ x = a) : l.filter p = [a] := by
  have h : ∀ x, x ∈ l.filter p ↔ x ∈ [a] := by simp [hm, ha]
  exact List.perm_singleton.1 ((List.perm_ext_iff_of_nodup (hl.filter _) (List.nodup_singleton a)).2 h)

/-- Counting 1 in the image of a list of everything without repeats means exactly one preimage. -/
theorem count_map_eq_one {α β : Type} [BEq β] [LawfulBEq β] {l : List α} (hl : l.Nodup) (hm : ∀ x, x ∈ l)
    (f : α → β) (y : β) : (l.map f).count y = 1 ↔ ∃! x, f x = y := by
  rw [List.count_eq_countP, List.countP_map, List.countP_eq_length_filter, List.length_eq_one_iff]
  constructor
  · rintro ⟨a, ha⟩
    have hx : ∀ x, f x = y ↔ x = a := fun x => by
      have : x ∈ l.filter ((fun x => x == y) ∘ f) ↔ x ∈ [a] := by rw [ha]
      simpa [hm] using this
    exact ⟨a, (hx a).2 rfl, fun z hz => (hx z).1 hz⟩
  · rintro ⟨a, ha, hu⟩
    exact ⟨a, filter_eq_singleton hl hm fun x => by simpa using ⟨hu x, fun h => h ▸ ha⟩⟩

theorem word_ext {a b : Word} (h : ∀ i : Fin 16, a.getLsbD i.val = b.getLsbD i.val) : a = b :=
  BitVec.eq_of_getLsbD_eq fun i hi => h ⟨i, hi⟩

/-- The bits a fold that sets single bits leaves. -/
theorem getLsbD_orFold (l : List (Fin 16)) (p : Fin 16 → Bool) (d : Fin 16 → Nat) (v : Word) {j : Nat} (hj : j < 16) :
    (l.foldl (fun v i => if p i then v ||| (1#16 <<< d i) else v) v).getLsbD j =
      (v.getLsbD j || l.any fun i => p i && d i == j) := by
  induction l generalizing v with
  | nil => simp
  | cons a l ih =>
    rw [List.foldl_cons, ih]
    by_cases hp : p a
    · have h1 : (1#16 <<< d a).getLsbD j = (d a == j) := by
        rw [BitVec.getLsbD_shiftLeft, Bool.eq_iff_iff]
        simp [hj]
        omega
      simp [hp, h1, Bool.or_assoc]
    · simp [hp]

/-- A bit of `Permute(w)` is 1 when a 1 bit has it as its destination (R103). -/
theorem getLsbD_permute (c : Config) (w : Word) {j : Nat} (hj : j < 16) :
    (c.permute w).getLsbD j = allBits.any fun i => w.getLsbD i.val && (c.dest i).val == j := by
  unfold Config.permute
  rw [getLsbD_orFold allBits (fun i => w.getLsbD i.val) (fun i => (c.dest i).val) 0 hj]
  simp

/-- Bit `i` of `InvPermute(v)` is bit `PERM[i]` of `v` (R104). -/
theorem getLsbD_invPermute (c : Config) (v : Word) (i : Fin 16) :
    (c.invPermute v).getLsbD i.val = v.getLsbD (c.dest i).val := by
  unfold Config.invPermute
  rw [getLsbD_orFold allBits (fun i => v.getLsbD (c.dest i).val) (fun i => i.val) 0 i.isLt, Bool.eq_iff_iff]
  simp only [Bool.or_eq_true, List.any_eq_true, Bool.and_eq_true, beq_iff_eq]
  constructor
  · rintro (h | ⟨x, -, h1, h2⟩)
    · exact absurd h (by simp)
    · exact Fin.ext h2 ▸ h1
  · intro h; exact .inr ⟨i, mem_allBits i, h, rfl⟩

namespace Machine

/-! ### Nibbles of words (R14) -/

theorem nib_joinNibbles (a b c d : Nibble) :
    nib (joinNibbles a b c d) 3 = a ∧ nib (joinNibbles a b c d) 2 = b ∧ nib (joinNibbles a b c d) 1 = c ∧
      nib (joinNibbles a b c d) 0 = d := by
  refine ⟨?_, ?_, ?_, ?_⟩ <;>
  · apply BitVec.eq_of_getLsbD_eq
    intro i hi
    simp only [nib, joinNibbles, BitVec.getLsbD_extractLsb', BitVec.getLsbD_append]
    interval_cases i <;> simp

theorem joinNibbles_nib (w : Word) : joinNibbles (nib w 3) (nib w 2) (nib w 1) (nib w 0) = w := by
  apply BitVec.eq_of_getLsbD_eq
  intro i hi
  simp only [nib, joinNibbles, BitVec.getLsbD_extractLsb', BitVec.getLsbD_append]
  interval_cases i <;> simp

theorem word_eq_iff_nibs {a b : Word} : a = b ↔ ∀ k < 4, nib a k = nib b k := by
  constructor
  · rintro rfl; simp
  · intro h
    rw [← joinNibbles_nib a, ← joinNibbles_nib b, h 0 (by omega), h 1 (by omega), h 2 (by omega), h 3 (by omega)]

theorem nib_or (a b : Word) (k : Nat) : nib (a ||| b) k = nib a k ||| nib b k := by
  apply BitVec.eq_of_getLsbD_eq; intro i hi; simp [nib, hi]

theorem nib_xor (a b : Word) (k : Nat) : nib (a ^^^ b) k = nib a k ^^^ nib b k := by
  apply BitVec.eq_of_getLsbD_eq; intro i hi; simp [nib, hi]

theorem nib_and (a b : Word) (k : Nat) : nib (a &&& b) k = nib a k &&& nib b k := by
  apply BitVec.eq_of_getLsbD_eq; intro i hi; simp [nib, hi]

theorem nib_zero (k : Nat) : nib 0 k = 0 := by
  apply BitVec.eq_of_getLsbD_eq; intro i hi; simp [nib]

theorem getLsbD_setnib (k : Nat) (n : Nibble) {j : Nat} (hj : j < 16) :
    (setnib k n).getLsbD j = (decide (4 * k ≤ j) && n.getLsbD (j - 4 * k)) := by
  simp only [setnib, BitVec.getLsbD_shiftLeft, BitVec.getLsbD_setWidth]
  rw [Bool.eq_iff_iff]; simp [hj]; omega

theorem nib_setnib_same {k : Nat} (hk : k < 4) (n : Nibble) : nib (setnib k n) k = n := by
  apply BitVec.eq_of_getLsbD_eq; intro i hi
  simp only [nib, BitVec.getLsbD_extractLsb', hi, decide_true, Bool.true_and]
  rw [getLsbD_setnib _ _ (by omega)]; simp

theorem nib_setnib_ne {k l : Nat} (hl : l < 4) (h : k ≠ l) (n : Nibble) : nib (setnib k n) l = 0 := by
  apply BitVec.eq_of_getLsbD_eq; intro i hi
  simp only [nib, BitVec.getLsbD_extractLsb', hi, decide_true, Bool.true_and]
  rw [getLsbD_setnib _ _ (by omega)]; simp
  intro h1; exact BitVec.getLsbD_of_ge _ _ (by omega)

theorem nib_subWord (c : Config) (w : Word) {k : Nat} (hk : k < 4) : nib (c.subWord w) k = c.sub (nib w k) := by
  obtain ⟨h3, h2, h1, h0⟩ := nib_joinNibbles (c.sub (nib w 3)) (c.sub (nib w 2)) (c.sub (nib w 1)) (c.sub (nib w 0))
  unfold Config.subWord
  interval_cases k <;> assumption

end Machine

end Sys2Proof
end

