-- ==== Sys2Proof/Laws/Attack.lean ====
section
/-!
SUPPORT. The pure functions of the attack: targeted positions, partial differences nibble by nibble, counters one at a
time, and the ascending scan (43_attack.md R156 to R161).
-/

namespace Sys2Proof.Machine

/-- The two targeted positions are two positions. -/
theorem positions_lt : ∀ {m : BitVec 4}, legalTmask m = true → lowPos m < highPos m ∧ highPos m < 4 := by decide

/-- The candidate's nibbles lie at the targeted positions (R157). -/
theorem nib_place {m : BitVec 4} (hm : legalTmask m = true) (x : Byte) :
    nib (place m x) (lowPos m) = x.extractLsb' 0 4 ∧ nib (place m x) (highPos m) = x.extractLsb' 4 4 := by
  obtain ⟨h1, h2⟩ := positions_lt hm
  constructor
  · simp only [place, nib_or]
    rw [nib_setnib_ne (by omega) (by omega), nib_setnib_same (by omega)]; simp
  · simp only [place, nib_or]
    rw [nib_setnib_ne (k := lowPos m) (by omega) (by omega), nib_setnib_same (by omega)]; simp

/-- The partial difference at the two targeted positions, and 0 at the others (R158). -/
theorem nib_partialDiff (inv : Nibble → Nibble) {m : BitVec 4} (hm : legalTmask m = true) (c1 c2 : Word) (x : Byte) :
    nib (partialDiff inv m c1 c2 x) (highPos m) =
      inv (nib c1 (highPos m) ^^^ x.extractLsb' 4 4) ^^^ inv (nib c2 (highPos m) ^^^ x.extractLsb' 4 4) ∧
    nib (partialDiff inv m c1 c2 x) (lowPos m) =
      inv (nib c1 (lowPos m) ^^^ x.extractLsb' 0 4) ^^^ inv (nib c2 (lowPos m) ^^^ x.extractLsb' 0 4) ∧
    ∀ k < 4, k ≠ lowPos m → k ≠ highPos m → nib (partialDiff inv m c1 c2 x) k = 0 := by
  obtain ⟨h1, h2⟩ := positions_lt hm
  obtain ⟨pl, ph⟩ := nib_place hm x
  simp only [partialDiff, List.foldl, nib_or, nib_zero, nib_xor, pl, ph]
  refine ⟨?_, ?_, ?_⟩
  · rw [nib_setnib_ne (k := lowPos m) (by omega) (by omega), nib_setnib_same (by omega)]; simp
  · rw [nib_setnib_ne (k := highPos m) (by omega) (by omega), nib_setnib_same (by omega)]; simp
  · intro k hk hl hh
    rw [nib_setnib_ne hk (by omega), nib_setnib_ne hk (by omega)]; simp

/-- One iteration, one counter at a time (R159). -/
theorem AttackIn.iteration_get (x : AttackIn) (t : Counters) (r : Word) (i : Fin 256) :
    (x.iteration t r)[i] = if x.counts r (BitVec.ofFin i) then t[i] + 1 else t[i] := by
  simp only [AttackIn.iteration, AttackIn.counts]
  by_cases h : passesFilter x.tmask (x.enc r) (x.enc (x.p2 r)) <;> simp [h]

/-- Many iterations, one counter at a time: a counter counts modulo `2^16`. -/
theorem AttackIn.foldl_iteration_get (x : AttackIn) (rs : List Word) (t : Counters) (i : Fin 256) :
    (rs.foldl x.iteration t)[i] = t[i] + BitVec.ofNat 16 (rs.countP fun r => x.counts r (BitVec.ofFin i)) := by
  induction rs generalizing t with
  | nil => simp
  | cons r rs ih =>
    rw [List.foldl_cons, ih, AttackIn.iteration_get, List.countP_cons]
    split
    · rw [BitVec.ofNat_add, BitVec.add_assoc, BitVec.add_comm (BitVec.ofNat 16 _)]; rfl
    · rw [Nat.add_zero]

@[simp] theorem zeroCounters_get (i : Fin 256) : zeroCounters[i] = 0 := by simp [zeroCounters]

theorem counters_ext {a b : Counters} (h : ∀ i : Fin 256, a[i] = b[i]) : a = b :=
  Vector.ext fun i hi => h ⟨i, hi⟩

/-- What holds of the ascending scan once it has seen the candidates below `n` (R161). -/
structure ScanInv (t : Counters) (n : Nat) (acc : Byte × Word) : Prop where
  upper : ∀ i : Fin 256, i.val < n → t[i] ≤ acc.2
  attained : t[acc.1.toNat]'acc.1.isLt = acc.2 ∨ acc = (0, 0)
  lowest : ∀ i : Fin 256, i.val < acc.1.toNat → t[i] < acc.2

theorem ScanInv.step {t : Counters} {acc : Byte × Word} (n : Fin 256) (h : ScanInv t n.val acc) :
    ScanInv t (n.val + 1) (argMaxStep t acc n) := by
  have below (i : Fin 256) (hi : i.val < n.val + 1) : i.val < n.val ∨ i = n := by
    rcases Nat.lt_succ_iff_lt_or_eq.1 hi with h | h
    · exact .inl h
    · exact .inr (Fin.ext h)
  unfold argMaxStep
  split
  · rename_i hlt
    refine ⟨fun i hi => ?_, .inl rfl, fun i hi => ?_⟩
    · rcases below i hi with hi | rfl
      · exact BitVec.le_of_lt (Nat.lt_of_le_of_lt (h.upper i hi) hlt)
      · exact BitVec.le_refl _
    · exact Nat.lt_of_le_of_lt (h.upper i (by simpa using hi)) hlt
  · rename_i hlt
    refine ⟨fun i hi => ?_, h.attained, h.lowest⟩
    rcases below i hi with hi | rfl
    · exact h.upper i hi
    · exact BitVec.not_lt.1 hlt

/-- A prefix of the candidates is one longer with the next one at its end. -/
theorem take_finRange_succ (n : Fin 256) :
    (List.finRange 256).take (n.val + 1) = (List.finRange 256).take n.val ++ [n] := by
  rw [List.take_add_one, List.getElem?_eq_getElem (by simp)]
  simp

theorem ScanInv.take (t : Counters) {n : Nat} (hn : n ≤ 256) :
    ScanInv t n (((List.finRange 256).take n).foldl (argMaxStep t) (0, 0)) := by
  induction n with
  | zero => exact ⟨by omega, .inr rfl, fun i hi => by simp at hi⟩
  | succ n ih =>
    rw [take_finRange_succ ⟨n, by omega⟩, List.foldl_append]
    exact (ih (by omega)).step ⟨n, by omega⟩

/-- The whole scan is the prefix of all 256 candidates. -/
theorem argMax_eq_take (t : Counters) :
    argMax t = ((List.finRange 256).take 256).foldl (argMaxStep t) (0, 0) := by
  rw [List.take_of_length_le (by simp)]; rfl

end Sys2Proof.Machine
end

