-- ==== Sys2Proof/Laws/State.lean ====
section
/-!
SUPPORT. The fields of a state after each named update: one lemma per field and update, so that no proof unfolds a record
update.
-/

namespace Sys2Proof.Machine

variable (s : State)

/-! ### `State.respond` -/

@[simp] theorem State.respond_cfg (data : Word) : (s.respond data).cfg = s.cfg := rfl
@[simp] theorem State.respond_keys (data : Word) : (s.respond data).keys = s.keys := rfl
@[simp] theorem State.respond_kv (data : Word) : (s.respond data).kv = s.kv := rfl
@[simp] theorem State.respond_deltaP (data : Word) : (s.respond data).deltaP = s.deltaP := rfl
@[simp] theorem State.respond_targetDu (data : Word) : (s.respond data).targetDu = s.targetDu := rfl
@[simp] theorem State.respond_tmask (data : Word) : (s.respond data).tmask = s.tmask := rfl
@[simp] theorem State.respond_iter (data : Word) : (s.respond data).iter = s.iter := rfl
@[simp] theorem State.respond_cnt (data : Word) : (s.respond data).cnt = s.cnt := rfl
@[simp] theorem State.respond_best (data : Word) : (s.respond data).best = s.best := rfl
@[simp] theorem State.respond_bestCnt (data : Word) : (s.respond data).bestCnt = s.bestCnt := rfl
@[simp] theorem State.respond_av (data : Word) : (s.respond data).av = s.av := rfl
@[simp] theorem State.respond_eIll (data : Word) : (s.respond data).eIll = s.eIll := rfl
@[simp] theorem State.respond_eCfg (data : Word) : (s.respond data).eCfg = s.eCfg := rfl
@[simp] theorem State.respond_eDiag (data : Word) : (s.respond data).eDiag = s.eDiag := rfl
@[simp] theorem State.respond_eArg (data : Word) : (s.respond data).eArg = s.eArg := rfl
@[simp] theorem State.respond_eUninit (data : Word) : (s.respond data).eUninit = s.eUninit := rfl
@[simp] theorem State.respond_cf (data : Word) : (s.respond data).cf = s.cf := rfl
@[simp] theorem State.respond_fsm (data : Word) : (s.respond data).fsm = .rsp := rfl
@[simp] theorem State.respond_rspreg (data : Word) : (s.respond data).rspreg = okResponse data := rfl
@[simp] theorem State.respond_work (data : Word) : (s.respond data).work = s.work := rfl
@[simp] theorem State.respond_env (data : Word) : (s.respond data).env = s.env := rfl

/-! ### `State.setRng` -/

@[simp] theorem State.setRng_cfg (g : Rng) : (s.setRng g).cfg = s.cfg := rfl
@[simp] theorem State.setRng_keys (g : Rng) : (s.setRng g).keys = s.keys := rfl
@[simp] theorem State.setRng_kv (g : Rng) : (s.setRng g).kv = s.kv := rfl
@[simp] theorem State.setRng_deltaP (g : Rng) : (s.setRng g).deltaP = s.deltaP := rfl
@[simp] theorem State.setRng_targetDu (g : Rng) : (s.setRng g).targetDu = s.targetDu := rfl
@[simp] theorem State.setRng_tmask (g : Rng) : (s.setRng g).tmask = s.tmask := rfl
@[simp] theorem State.setRng_iter (g : Rng) : (s.setRng g).iter = s.iter := rfl
@[simp] theorem State.setRng_cnt (g : Rng) : (s.setRng g).cnt = s.cnt := rfl
@[simp] theorem State.setRng_best (g : Rng) : (s.setRng g).best = s.best := rfl
@[simp] theorem State.setRng_bestCnt (g : Rng) : (s.setRng g).bestCnt = s.bestCnt := rfl
@[simp] theorem State.setRng_av (g : Rng) : (s.setRng g).av = s.av := rfl
@[simp] theorem State.setRng_eIll (g : Rng) : (s.setRng g).eIll = s.eIll := rfl
@[simp] theorem State.setRng_eCfg (g : Rng) : (s.setRng g).eCfg = s.eCfg := rfl
@[simp] theorem State.setRng_eDiag (g : Rng) : (s.setRng g).eDiag = s.eDiag := rfl
@[simp] theorem State.setRng_eArg (g : Rng) : (s.setRng g).eArg = s.eArg := rfl
@[simp] theorem State.setRng_eUninit (g : Rng) : (s.setRng g).eUninit = s.eUninit := rfl
@[simp] theorem State.setRng_cf (g : Rng) : (s.setRng g).cf = s.cf := rfl
@[simp] theorem State.setRng_fsm (g : Rng) : (s.setRng g).fsm = s.fsm := rfl
@[simp] theorem State.setRng_rspreg (g : Rng) : (s.setRng g).rspreg = s.rspreg := rfl
@[simp] theorem State.setRng_work (g : Rng) : (s.setRng g).work = s.work := rfl
@[simp] theorem State.setRng_env (g : Rng) : (s.setRng g).env = { s.env with rng := g } := rfl

/-! ### `State.accept` -/

@[simp] theorem State.accept_cfg : (s.accept).cfg = s.cfg := rfl
@[simp] theorem State.accept_keys : (s.accept).keys = s.keys := rfl
@[simp] theorem State.accept_kv : (s.accept).kv = s.kv := rfl
@[simp] theorem State.accept_deltaP : (s.accept).deltaP = s.deltaP := rfl
@[simp] theorem State.accept_targetDu : (s.accept).targetDu = s.targetDu := rfl
@[simp] theorem State.accept_tmask : (s.accept).tmask = s.tmask := rfl
@[simp] theorem State.accept_iter : (s.accept).iter = s.iter := rfl
@[simp] theorem State.accept_cnt : (s.accept).cnt = s.cnt := rfl
@[simp] theorem State.accept_best : (s.accept).best = s.best := rfl
@[simp] theorem State.accept_bestCnt : (s.accept).bestCnt = s.bestCnt := rfl
@[simp] theorem State.accept_av : (s.accept).av = s.av := rfl
@[simp] theorem State.accept_eIll : (s.accept).eIll = s.eIll := rfl
@[simp] theorem State.accept_eCfg : (s.accept).eCfg = s.eCfg := rfl
@[simp] theorem State.accept_eDiag : (s.accept).eDiag = s.eDiag := rfl
@[simp] theorem State.accept_eArg : (s.accept).eArg = s.eArg := rfl
@[simp] theorem State.accept_eUninit : (s.accept).eUninit = s.eUninit := rfl
@[simp] theorem State.accept_cf : (s.accept).cf = s.cf := rfl
@[simp] theorem State.accept_fsm : (s.accept).fsm = s.fsm := rfl
@[simp] theorem State.accept_rspreg : (s.accept).rspreg = s.rspreg := rfl
@[simp] theorem State.accept_work : (s.accept).work = s.work := rfl
@[simp] theorem State.accept_env : (s.accept).env = { s.env with cmdq := s.env.cmdq.tail, cmdIdx := s.env.cmdIdx + 1 } := rfl

/-! ### `State.handOver` -/

@[simp] theorem State.handOver_cfg : (s.handOver).cfg = s.cfg := rfl
@[simp] theorem State.handOver_keys : (s.handOver).keys = s.keys := rfl
@[simp] theorem State.handOver_kv : (s.handOver).kv = s.kv := rfl
@[simp] theorem State.handOver_deltaP : (s.handOver).deltaP = s.deltaP := rfl
@[simp] theorem State.handOver_targetDu : (s.handOver).targetDu = s.targetDu := rfl
@[simp] theorem State.handOver_tmask : (s.handOver).tmask = s.tmask := rfl
@[simp] theorem State.handOver_iter : (s.handOver).iter = s.iter := rfl
@[simp] theorem State.handOver_cnt : (s.handOver).cnt = s.cnt := rfl
@[simp] theorem State.handOver_best : (s.handOver).best = s.best := rfl
@[simp] theorem State.handOver_bestCnt : (s.handOver).bestCnt = s.bestCnt := rfl
@[simp] theorem State.handOver_av : (s.handOver).av = s.av := rfl
@[simp] theorem State.handOver_eIll : (s.handOver).eIll = s.eIll := rfl
@[simp] theorem State.handOver_eCfg : (s.handOver).eCfg = s.eCfg := rfl
@[simp] theorem State.handOver_eDiag : (s.handOver).eDiag = s.eDiag := rfl
@[simp] theorem State.handOver_eArg : (s.handOver).eArg = s.eArg := rfl
@[simp] theorem State.handOver_eUninit : (s.handOver).eUninit = s.eUninit := rfl
@[simp] theorem State.handOver_cf : (s.handOver).cf = s.cf := rfl
@[simp] theorem State.handOver_fsm : (s.handOver).fsm = .idle := rfl
@[simp] theorem State.handOver_rspreg : (s.handOver).rspreg = s.rspreg := rfl
@[simp] theorem State.handOver_work : (s.handOver).work = s.work := rfl
@[simp] theorem State.handOver_env : (s.handOver).env = { s.env with taken := s.env.taken ++ [s.rspreg] } := rfl

/-! ### `State.act` -/

@[simp] theorem State.act_cfg (a : EnvAction) : (s.act a).cfg = s.cfg := rfl
@[simp] theorem State.act_keys (a : EnvAction) : (s.act a).keys = s.keys := rfl
@[simp] theorem State.act_kv (a : EnvAction) : (s.act a).kv = s.kv := rfl
@[simp] theorem State.act_deltaP (a : EnvAction) : (s.act a).deltaP = s.deltaP := rfl
@[simp] theorem State.act_targetDu (a : EnvAction) : (s.act a).targetDu = s.targetDu := rfl
@[simp] theorem State.act_tmask (a : EnvAction) : (s.act a).tmask = s.tmask := rfl
@[simp] theorem State.act_iter (a : EnvAction) : (s.act a).iter = s.iter := rfl
@[simp] theorem State.act_cnt (a : EnvAction) : (s.act a).cnt = s.cnt := rfl
@[simp] theorem State.act_best (a : EnvAction) : (s.act a).best = s.best := rfl
@[simp] theorem State.act_bestCnt (a : EnvAction) : (s.act a).bestCnt = s.bestCnt := rfl
@[simp] theorem State.act_av (a : EnvAction) : (s.act a).av = s.av := rfl
@[simp] theorem State.act_eIll (a : EnvAction) : (s.act a).eIll = s.eIll := rfl
@[simp] theorem State.act_eCfg (a : EnvAction) : (s.act a).eCfg = s.eCfg := rfl
@[simp] theorem State.act_eDiag (a : EnvAction) : (s.act a).eDiag = s.eDiag := rfl
@[simp] theorem State.act_eArg (a : EnvAction) : (s.act a).eArg = s.eArg := rfl
@[simp] theorem State.act_eUninit (a : EnvAction) : (s.act a).eUninit = s.eUninit := rfl
@[simp] theorem State.act_cf (a : EnvAction) : (s.act a).cf = s.cf := rfl
@[simp] theorem State.act_fsm (a : EnvAction) : (s.act a).fsm = s.fsm := rfl
@[simp] theorem State.act_rspreg (a : EnvAction) : (s.act a).rspreg = s.rspreg := rfl
@[simp] theorem State.act_work (a : EnvAction) : (s.act a).work = s.work := rfl
@[simp] theorem State.act_env (a : EnvAction) : (s.act a).env = s.env.act a := rfl

/-! ### `State.putKey` -/

@[simp] theorem State.putKey_cfg (v : Word) : (s.putKey v).cfg = s.cfg := rfl
@[simp] theorem State.putKey_keys (v : Word) : (s.putKey v).keys = s.keys.setIfInBounds s.work.kidx.toNat v := rfl
@[simp] theorem State.putKey_kv (v : Word) : (s.putKey v).kv = s.kv := rfl
@[simp] theorem State.putKey_deltaP (v : Word) : (s.putKey v).deltaP = s.deltaP := rfl
@[simp] theorem State.putKey_targetDu (v : Word) : (s.putKey v).targetDu = s.targetDu := rfl
@[simp] theorem State.putKey_tmask (v : Word) : (s.putKey v).tmask = s.tmask := rfl
@[simp] theorem State.putKey_iter (v : Word) : (s.putKey v).iter = s.iter := rfl
@[simp] theorem State.putKey_cnt (v : Word) : (s.putKey v).cnt = s.cnt := rfl
@[simp] theorem State.putKey_best (v : Word) : (s.putKey v).best = s.best := rfl
@[simp] theorem State.putKey_bestCnt (v : Word) : (s.putKey v).bestCnt = s.bestCnt := rfl
@[simp] theorem State.putKey_av (v : Word) : (s.putKey v).av = s.av := rfl
@[simp] theorem State.putKey_eIll (v : Word) : (s.putKey v).eIll = s.eIll := rfl
@[simp] theorem State.putKey_eCfg (v : Word) : (s.putKey v).eCfg = s.eCfg := rfl
@[simp] theorem State.putKey_eDiag (v : Word) : (s.putKey v).eDiag = s.eDiag := rfl
@[simp] theorem State.putKey_eArg (v : Word) : (s.putKey v).eArg = s.eArg := rfl
@[simp] theorem State.putKey_eUninit (v : Word) : (s.putKey v).eUninit = s.eUninit := rfl
@[simp] theorem State.putKey_cf (v : Word) : (s.putKey v).cf = s.cf := rfl
@[simp] theorem State.putKey_fsm (v : Word) : (s.putKey v).fsm = s.fsm := rfl
@[simp] theorem State.putKey_rspreg (v : Word) : (s.putKey v).rspreg = s.rspreg := rfl
@[simp] theorem State.putKey_work (v : Word) : (s.putKey v).work = { s.work with kidx := s.work.kidx + 1 } := rfl
@[simp] theorem State.putKey_env (v : Word) : (s.putKey v).env = s.env := rfl

/-! ### `State.keygenStart` -/

@[simp] theorem State.keygenStart_cfg : (s.keygenStart).cfg = s.cfg := rfl
@[simp] theorem State.keygenStart_keys : (s.keygenStart).keys = s.keys := rfl
@[simp] theorem State.keygenStart_kv : (s.keygenStart).kv = s.kv := rfl
@[simp] theorem State.keygenStart_deltaP : (s.keygenStart).deltaP = s.deltaP := rfl
@[simp] theorem State.keygenStart_targetDu : (s.keygenStart).targetDu = s.targetDu := rfl
@[simp] theorem State.keygenStart_tmask : (s.keygenStart).tmask = s.tmask := rfl
@[simp] theorem State.keygenStart_iter : (s.keygenStart).iter = s.iter := rfl
@[simp] theorem State.keygenStart_cnt : (s.keygenStart).cnt = s.cnt := rfl
@[simp] theorem State.keygenStart_best : (s.keygenStart).best = s.best := rfl
@[simp] theorem State.keygenStart_bestCnt : (s.keygenStart).bestCnt = s.bestCnt := rfl
@[simp] theorem State.keygenStart_av : (s.keygenStart).av = s.av := rfl
@[simp] theorem State.keygenStart_eIll : (s.keygenStart).eIll = s.eIll := rfl
@[simp] theorem State.keygenStart_eCfg : (s.keygenStart).eCfg = s.eCfg := rfl
@[simp] theorem State.keygenStart_eDiag : (s.keygenStart).eDiag = s.eDiag := rfl
@[simp] theorem State.keygenStart_eArg : (s.keygenStart).eArg = s.eArg := rfl
@[simp] theorem State.keygenStart_eUninit : (s.keygenStart).eUninit = s.eUninit := rfl
@[simp] theorem State.keygenStart_cf : (s.keygenStart).cf = s.cf := rfl
@[simp] theorem State.keygenStart_fsm : (s.keygenStart).fsm = s.fsm := rfl
@[simp] theorem State.keygenStart_rspreg : (s.keygenStart).rspreg = s.rspreg := rfl
@[simp] theorem State.keygenStart_work : (s.keygenStart).work = { s.work with kidx := 0 } := rfl
@[simp] theorem State.keygenStart_env : (s.keygenStart).env = s.env := rfl

/-! ### `State.keygenFinish` -/

@[simp] theorem State.keygenFinish_cfg : (s.keygenFinish).cfg = s.cfg := rfl
@[simp] theorem State.keygenFinish_keys : (s.keygenFinish).keys = s.keys := rfl
@[simp] theorem State.keygenFinish_kv : (s.keygenFinish).kv = true := rfl
@[simp] theorem State.keygenFinish_deltaP : (s.keygenFinish).deltaP = s.deltaP := rfl
@[simp] theorem State.keygenFinish_targetDu : (s.keygenFinish).targetDu = s.targetDu := rfl
@[simp] theorem State.keygenFinish_tmask : (s.keygenFinish).tmask = s.tmask := rfl
@[simp] theorem State.keygenFinish_iter : (s.keygenFinish).iter = s.iter := rfl
@[simp] theorem State.keygenFinish_cnt : (s.keygenFinish).cnt = s.cnt := rfl
@[simp] theorem State.keygenFinish_best : (s.keygenFinish).best = s.best := rfl
@[simp] theorem State.keygenFinish_bestCnt : (s.keygenFinish).bestCnt = s.bestCnt := rfl
@[simp] theorem State.keygenFinish_av : (s.keygenFinish).av = false := rfl
@[simp] theorem State.keygenFinish_eIll : (s.keygenFinish).eIll = s.eIll := rfl
@[simp] theorem State.keygenFinish_eCfg : (s.keygenFinish).eCfg = s.eCfg := rfl
@[simp] theorem State.keygenFinish_eDiag : (s.keygenFinish).eDiag = s.eDiag := rfl
@[simp] theorem State.keygenFinish_eArg : (s.keygenFinish).eArg = s.eArg := rfl
@[simp] theorem State.keygenFinish_eUninit : (s.keygenFinish).eUninit = s.eUninit := rfl
@[simp] theorem State.keygenFinish_cf : (s.keygenFinish).cf = s.cf := rfl
@[simp] theorem State.keygenFinish_fsm : (s.keygenFinish).fsm = .rsp := rfl
@[simp] theorem State.keygenFinish_rspreg : (s.keygenFinish).rspreg = okResponse 0 := rfl
@[simp] theorem State.keygenFinish_work : (s.keygenFinish).work = s.work := rfl
@[simp] theorem State.keygenFinish_env : (s.keygenFinish).env = s.env := rfl

/-! ### `State.atkClear` -/

@[simp] theorem State.atkClear_cfg : (s.atkClear).cfg = s.cfg := rfl
@[simp] theorem State.atkClear_keys : (s.atkClear).keys = s.keys := rfl
@[simp] theorem State.atkClear_kv : (s.atkClear).kv = s.kv := rfl
@[simp] theorem State.atkClear_deltaP : (s.atkClear).deltaP = s.deltaP := rfl
@[simp] theorem State.atkClear_targetDu : (s.atkClear).targetDu = s.targetDu := rfl
@[simp] theorem State.atkClear_tmask : (s.atkClear).tmask = s.tmask := rfl
@[simp] theorem State.atkClear_iter : (s.atkClear).iter = s.iter := rfl
@[simp] theorem State.atkClear_cnt : (s.atkClear).cnt = zeroCounters := rfl
@[simp] theorem State.atkClear_best : (s.atkClear).best = s.best := rfl
@[simp] theorem State.atkClear_bestCnt : (s.atkClear).bestCnt = s.bestCnt := rfl
@[simp] theorem State.atkClear_av : (s.atkClear).av = false := rfl
@[simp] theorem State.atkClear_eIll : (s.atkClear).eIll = s.eIll := rfl
@[simp] theorem State.atkClear_eCfg : (s.atkClear).eCfg = s.eCfg := rfl
@[simp] theorem State.atkClear_eDiag : (s.atkClear).eDiag = s.eDiag := rfl
@[simp] theorem State.atkClear_eArg : (s.atkClear).eArg = s.eArg := rfl
@[simp] theorem State.atkClear_eUninit : (s.atkClear).eUninit = s.eUninit := rfl
@[simp] theorem State.atkClear_cf : (s.atkClear).cf = s.cf := rfl
@[simp] theorem State.atkClear_fsm : (s.atkClear).fsm = s.fsm := rfl
@[simp] theorem State.atkClear_rspreg : (s.atkClear).rspreg = s.rspreg := rfl
@[simp] theorem State.atkClear_work : (s.atkClear).work = { s.work with it := 0 } := rfl
@[simp] theorem State.atkClear_env : (s.atkClear).env = s.env := rfl

/-! ### `State.atkIterate` -/

@[simp] theorem State.atkIterate_cfg (r : Word) : (s.atkIterate r).cfg = s.cfg := rfl
@[simp] theorem State.atkIterate_keys (r : Word) : (s.atkIterate r).keys = s.keys := rfl
@[simp] theorem State.atkIterate_kv (r : Word) : (s.atkIterate r).kv = s.kv := rfl
@[simp] theorem State.atkIterate_deltaP (r : Word) : (s.atkIterate r).deltaP = s.deltaP := rfl
@[simp] theorem State.atkIterate_targetDu (r : Word) : (s.atkIterate r).targetDu = s.targetDu := rfl
@[simp] theorem State.atkIterate_tmask (r : Word) : (s.atkIterate r).tmask = s.tmask := rfl
@[simp] theorem State.atkIterate_iter (r : Word) : (s.atkIterate r).iter = s.iter := rfl
@[simp] theorem State.atkIterate_cnt (r : Word) : (s.atkIterate r).cnt = s.attackIn.iteration s.cnt r := rfl
@[simp] theorem State.atkIterate_best (r : Word) : (s.atkIterate r).best = s.best := rfl
@[simp] theorem State.atkIterate_bestCnt (r : Word) : (s.atkIterate r).bestCnt = s.bestCnt := rfl
@[simp] theorem State.atkIterate_av (r : Word) : (s.atkIterate r).av = s.av := rfl
@[simp] theorem State.atkIterate_eIll (r : Word) : (s.atkIterate r).eIll = s.eIll := rfl
@[simp] theorem State.atkIterate_eCfg (r : Word) : (s.atkIterate r).eCfg = s.eCfg := rfl
@[simp] theorem State.atkIterate_eDiag (r : Word) : (s.atkIterate r).eDiag = s.eDiag := rfl
@[simp] theorem State.atkIterate_eArg (r : Word) : (s.atkIterate r).eArg = s.eArg := rfl
@[simp] theorem State.atkIterate_eUninit (r : Word) : (s.atkIterate r).eUninit = s.eUninit := rfl
@[simp] theorem State.atkIterate_cf (r : Word) : (s.atkIterate r).cf = s.cf := rfl
@[simp] theorem State.atkIterate_fsm (r : Word) : (s.atkIterate r).fsm = s.fsm := rfl
@[simp] theorem State.atkIterate_rspreg (r : Word) : (s.atkIterate r).rspreg = s.rspreg := rfl
@[simp] theorem State.atkIterate_work (r : Word) : (s.atkIterate r).work = { s.work with it := s.work.it + 1 } := rfl
@[simp] theorem State.atkIterate_env (r : Word) : (s.atkIterate r).env = s.env := rfl

/-! ### `State.atkFinish` -/

@[simp] theorem State.atkFinish_cfg : (s.atkFinish).cfg = s.cfg := rfl
@[simp] theorem State.atkFinish_keys : (s.atkFinish).keys = s.keys := rfl
@[simp] theorem State.atkFinish_kv : (s.atkFinish).kv = s.kv := rfl
@[simp] theorem State.atkFinish_deltaP : (s.atkFinish).deltaP = s.deltaP := rfl
@[simp] theorem State.atkFinish_targetDu : (s.atkFinish).targetDu = s.targetDu := rfl
@[simp] theorem State.atkFinish_tmask : (s.atkFinish).tmask = s.tmask := rfl
@[simp] theorem State.atkFinish_iter : (s.atkFinish).iter = s.iter := rfl
@[simp] theorem State.atkFinish_cnt : (s.atkFinish).cnt = s.cnt := rfl
@[simp] theorem State.atkFinish_best : (s.atkFinish).best = (argMax s.cnt).1 := rfl
@[simp] theorem State.atkFinish_bestCnt : (s.atkFinish).bestCnt = (argMax s.cnt).2 := rfl
@[simp] theorem State.atkFinish_av : (s.atkFinish).av = true := rfl
@[simp] theorem State.atkFinish_eIll : (s.atkFinish).eIll = s.eIll := rfl
@[simp] theorem State.atkFinish_eCfg : (s.atkFinish).eCfg = s.eCfg := rfl
@[simp] theorem State.atkFinish_eDiag : (s.atkFinish).eDiag = s.eDiag := rfl
@[simp] theorem State.atkFinish_eArg : (s.atkFinish).eArg = s.eArg := rfl
@[simp] theorem State.atkFinish_eUninit : (s.atkFinish).eUninit = s.eUninit := rfl
@[simp] theorem State.atkFinish_cf : (s.atkFinish).cf = s.cf := rfl
@[simp] theorem State.atkFinish_fsm : (s.atkFinish).fsm = .rsp := rfl
@[simp] theorem State.atkFinish_rspreg : (s.atkFinish).rspreg = okResponse (zext16 (argMax s.cnt).1) := rfl
@[simp] theorem State.atkFinish_work : (s.atkFinish).work = s.work := rfl
@[simp] theorem State.atkFinish_env : (s.atkFinish).env = s.env := rfl

/-! ### `State.raise`: the five flags by `State.raise_sticky` -/

@[simp] theorem State.raise_cfg (e : Cause) : (s.raise e).cfg = s.cfg := by cases e <;> rfl
@[simp] theorem State.raise_keys (e : Cause) : (s.raise e).keys = s.keys := by cases e <;> rfl
@[simp] theorem State.raise_kv (e : Cause) : (s.raise e).kv = s.kv := by cases e <;> rfl
@[simp] theorem State.raise_deltaP (e : Cause) : (s.raise e).deltaP = s.deltaP := by cases e <;> rfl
@[simp] theorem State.raise_targetDu (e : Cause) : (s.raise e).targetDu = s.targetDu := by cases e <;> rfl
@[simp] theorem State.raise_tmask (e : Cause) : (s.raise e).tmask = s.tmask := by cases e <;> rfl
@[simp] theorem State.raise_iter (e : Cause) : (s.raise e).iter = s.iter := by cases e <;> rfl
@[simp] theorem State.raise_cnt (e : Cause) : (s.raise e).cnt = s.cnt := by cases e <;> rfl
@[simp] theorem State.raise_best (e : Cause) : (s.raise e).best = s.best := by cases e <;> rfl
@[simp] theorem State.raise_bestCnt (e : Cause) : (s.raise e).bestCnt = s.bestCnt := by cases e <;> rfl
@[simp] theorem State.raise_av (e : Cause) : (s.raise e).av = s.av := by cases e <;> rfl
@[simp] theorem State.raise_cf (e : Cause) : (s.raise e).cf = s.cf := by cases e <;> rfl
@[simp] theorem State.raise_fsm (e : Cause) : (s.raise e).fsm = .rsp := rfl
@[simp] theorem State.raise_rspreg (e : Cause) : (s.raise e).rspreg = refusedResponse e.code := rfl
@[simp] theorem State.raise_work (e : Cause) : (s.raise e).work = s.work := by cases e <;> rfl
@[simp] theorem State.raise_env (e : Cause) : (s.raise e).env = s.env := by cases e <;> rfl

@[simp] theorem State.raise_sticky (e e' : Cause) :
    (s.raise e).sticky e' = (decide (e' = e) || s.sticky e') := by
  cases e <;> cases e' <;> rfl

end Sys2Proof.Machine
end

