-- ==== Sys2Proof/Laws/Ops.lean ====
section
/-!
SUPPORT. What each shared operation can do: drawing, table commands, register writes, handing the response over.
-/

namespace Sys2Proof.Machine

/-! ### The random source -/

@[simp] theorem Rng.after_zero (g : Rng) : g.after 0 = g := by simp [Rng.after]

@[simp] theorem Rng.after_after (g : Rng) (a b : Nat) : (g.after a).after b = g.after (a + b) := by
  simp [Rng.after, Nat.add_assoc]

@[simp] theorem Rng.peek_after (g : Rng) (a b : Nat) : (g.after a).peek b = g.peek (a + b) := by
  simp [Rng.peek, Rng.after, Nat.add_assoc]

@[simp] theorem Rng.after_live (g : Rng) (n : Nat) : (g.after n).live = g.live := rfl

/-- A live RNG presents every value asked for (R227). -/
theorem Rng.peek_live {g : Rng} (h : g.live = true) (k : Nat) : ∃ v, g.peek k = some v := by
  unfold Rng.peek
  split
  · exact ⟨_, rfl⟩
  · exact ⟨_, if_pos h⟩

/-- A draw is a look at the next value and an advance by one. -/
theorem Rng.draw_eq (g : Rng) : g.draw = (g.peek 0).map fun v => (v, g.after 1) := by
  rcases g with ⟨_ | ⟨v, rest⟩, live, pos⟩
  · cases live <;> simp [Rng.draw, Rng.peek, Rng.after]
  · simp [Rng.draw, Rng.peek, Rng.after]

@[simp] theorem State.setRng_setRng (s : State) (g h : Rng) : (s.setRng g).setRng h = s.setRng h := rfl

@[simp] theorem State.setRng_rng (s : State) : s.setRng s.env.rng = s := rfl

/-- The state that `n` draws leave. -/
abbrev State.drawn (s : State) (n : Nat) : State := s.setRng (s.env.rng.after n)

theorem State.draw_eq (s : State) : s.draw = (s.env.rng.peek 0).map fun v => (v, s.drawn 1) := by
  unfold State.draw
  rw [Rng.draw_eq]
  cases s.env.rng.peek 0 <;> rfl

theorem State.draw_of_peek {s : State} {v : Word} (h : s.env.rng.peek 0 = some v) : s.draw = some (v, s.drawn 1) := by
  rw [State.draw_eq, h]; rfl

theorem State.draw_of_silent {s : State} (h : s.env.rng.peek 0 = none) : s.draw = none := by
  rw [State.draw_eq, h]; rfl

/-- Everything a draw can do. -/
theorem State.draw_cases (s : State) :
    (s.env.rng.peek 0 = none ∧ s.env.rng.live = false ∧ s.draw = none) ∨
      ∃ v, s.env.rng.peek 0 = some v ∧ s.draw = some (v, s.drawn 1) := by
  rcases hp : s.env.rng.peek 0 with _ | v
  · refine .inl ⟨rfl, ?_, State.draw_of_silent hp⟩
    rcases hl : s.env.rng.live
    · rfl
    · obtain ⟨v, hv⟩ := Rng.peek_live hl 0
      rw [hp] at hv; cases hv
  · exact .inr ⟨v, rfl, State.draw_of_peek hp⟩

/-! ### Answers and writes -/

/-- Everything a table command can do (R213). -/
theorem State.answerTable_cases (s : State) (d : Word) :
    (s.cf = true ∧ s.answerTable d = s.raise .cfg) ∨ (s.cf = false ∧ s.answerTable d = s.respond d) := by
  unfold State.answerTable
  cases s.cf <;> simp

/-- Everything an accepted register write can do (R195). -/
theorem State.writeCr_some {s t : State} {r : CrName} {v : Word} (h : s.writeCr r v = some t) :
    (r = .deltaP ∧ t = { s with deltaP := v }) ∨ (r = .targetDu ∧ t = { s with targetDu := v }) ∨
      (r = .tmask ∧ legalTmaskData v = true ∧ t = { s with tmask := v.extractLsb' 0 4 }) ∨
      (r = .iter ∧ t = { s with iter := v }) := by
  unfold State.writeCr at h
  split at h
  · exact .inl ⟨rfl, (Option.some.inj h).symm⟩
  · exact .inr (.inl ⟨rfl, (Option.some.inj h).symm⟩)
  · split at h
    · exact .inr (.inr (.inl ⟨rfl, ‹_›, (Option.some.inj h).symm⟩))
    · cases h
  · exact .inr (.inr (.inr ⟨rfl, (Option.some.inj h).symm⟩))
  all_goals cases h

/-- Data that `WRCR TMASK` accepts gives a legal mask (R29). -/
theorem legalTmask_of_data {v : Word} (h : legalTmaskData v = true) : legalTmask (v.extractLsb' 0 4) = true := by
  unfold legalTmaskData at h
  exact (Bool.and_eq_true_iff.1 h).2

/-- The two ways `S_RSP` goes (R177). -/
theorem State.tickRsp_cases (s : State) :
    (s.env.rspReady = false ∧ s.tickRsp = s) ∨ (s.env.rspReady = true ∧ s.tickRsp = s.handOver) := by
  unfold State.tickRsp
  cases s.env.rspReady <;> simp

end Sys2Proof.Machine
end

