-- ==== Sys2Proof/Laws/Loops.lean ====
section
/-!
SUPPORT. The two loops that draw, `KEYGEN` (41_cipher.md R123) and `ATK` (43_attack.md R160, R162): what they do on the
values the RNG gives, what they do when it falls silent, and so everything they can do.
-/

namespace Sys2Proof.Machine

/-- The next values of the RNG are `vs`. -/
def Rng.Gives (g : Rng) (vs : List Word) : Prop := ∀ (k : Nat) (h : k < vs.length), g.peek k = some vs[k]

theorem Rng.gives_cons {g : Rng} {v : Word} {vs : List Word} :
    g.Gives (v :: vs) ↔ g.peek 0 = some v ∧ (g.after 1).Gives vs := by
  constructor
  · intro h
    refine ⟨h 0 (by simp), fun k hk => ?_⟩
    have := h (k + 1) (by simpa using hk)
    simpa [Nat.add_comm] using this
  · rintro ⟨h0, h⟩ k hk
    rcases k with _ | k
    · exact h0
    · have := h k (by simpa using hk)
      simpa [Nat.add_comm] using this

/-- Of `n` values asked for, the RNG gives all, or gives fewer and then is silent. -/
theorem Rng.gives_cases (g : Rng) (n : Nat) :
    (∃ vs : List Word, vs.length = n ∧ g.Gives vs) ∨
      ∃ vs : List Word, vs.length < n ∧ g.Gives vs ∧ (g.after vs.length).peek 0 = none ∧ g.live = false := by
  induction n generalizing g with
  | zero => exact .inl ⟨[], rfl, fun k h => by simp at h⟩
  | succ n ih =>
    rcases hp : g.peek 0 with _ | v
    · refine .inr ⟨[], by simp, fun k h => by simp at h, by simpa using hp, ?_⟩
      rcases hl : g.live
      · rfl
      · obtain ⟨v, hv⟩ := Rng.peek_live hl 0
        rw [hp] at hv; cases hv
    · rcases ih (g.after 1) with ⟨vs, hn, hg⟩ | ⟨vs, hn, hg, hs, hl⟩
      · exact .inl ⟨v :: vs, by simp [hn], Rng.gives_cons.2 ⟨hp, hg⟩⟩
      · refine .inr ⟨v :: vs, by simpa using hn, Rng.gives_cons.2 ⟨hp, hg⟩, ?_, hl⟩
        simpa [Nat.add_comm] using hs

/-! ### `KEYGEN` -/

/-- The key registers and the key index after `vs` have been put into them. -/
def State.putKeys (s : State) (vs : List Word) : State := vs.foldl State.putKey s

theorem State.putKeys_eq (s : State) (vs : List Word) :
    ∃ ks, s.putKeys vs = { s with
      keys := ks, work := { s.work with kidx := s.work.kidx + BitVec.ofNat 3 vs.length } } := by
  induction vs generalizing s with
  | nil => exact ⟨s.keys, by simp [State.putKeys]⟩
  | cons v vs ih =>
    obtain ⟨ks, h⟩ := ih (s.putKey v)
    refine ⟨ks, ?_⟩
    have e : s.work.kidx + 1 + BitVec.ofNat 3 vs.length = s.work.kidx + BitVec.ofNat 3 (vs.length + 1) := by
      rw [BitVec.ofNat_add, BitVec.add_assoc, BitVec.add_comm (BitVec.ofNat 3 vs.length)]; rfl
    rw [List.length_cons, ← e]
    exact h

theorem State.putKeys_drawn (s : State) (vs : List Word) (g : Rng) :
    (s.setRng g).putKeys vs = (s.putKeys vs).setRng g := by
  induction vs generalizing s with
  | nil => rfl
  | cons v vs ih => exact ih (s.putKey v)

theorem State.keygenLoop_gives {s : State} {vs : List Word} (h : s.env.rng.Gives vs) (n : Nat) :
    s.keygenLoop (vs.length + n) = ((s.putKeys vs).setRng (s.env.rng.after vs.length)).keygenLoop n := by
  induction vs generalizing s with
  | nil => simp [State.putKeys]
  | cons v vs ih =>
    obtain ⟨h0, h1⟩ := Rng.gives_cons.1 h
    rw [List.length_cons, show vs.length + 1 + n = (vs.length + n) + 1 by omega]
    simp only [State.keygenLoop, State.draw_of_peek h0]
    rw [ih (by exact h1)]
    show State.keygenLoop n ((((s.setRng _).putKey v).putKeys vs).setRng _) = _
    have e : ((s.drawn 1).putKey v).putKeys vs = (s.putKeys (v :: vs)).setRng (s.env.rng.after 1) :=
      State.putKeys_drawn (s.putKey v) vs _
    rw [show (s.setRng (s.env.rng.after 1)).putKey v = (s.drawn 1).putKey v from rfl, e]
    simp [Nat.add_comm]

theorem State.keygenLoop_silent {s : State} (h : s.env.rng.peek 0 = none) (n : Nat) :
    s.keygenLoop (n + 1) = { s with fsm := .kg } := by
  simp only [State.keygenLoop, State.draw_of_silent h]

/-- Everything the loop of `KEYGEN` can do: load all the keys asked for and finish, or load fewer and hold. -/
theorem State.keygenLoop_cases (n : Nat) (s : State) :
    (∃ vs : List Word, vs.length = n ∧ s.env.rng.Gives vs ∧
      s.keygenLoop n = ((s.putKeys vs).setRng (s.env.rng.after n)).keygenFinish) ∨
    ∃ vs : List Word, vs.length < n ∧ s.env.rng.Gives vs ∧ s.env.rng.live = false ∧
      (s.env.rng.after vs.length).peek 0 = none ∧
      s.keygenLoop n = { (s.putKeys vs).setRng (s.env.rng.after vs.length) with fsm := .kg } := by
  rcases Rng.gives_cases s.env.rng n with ⟨vs, hn, hg⟩ | ⟨vs, hn, hg, hs, hl⟩
  · refine .inl ⟨vs, hn, hg, ?_⟩
    have := State.keygenLoop_gives hg 0
    rw [Nat.add_zero, hn] at this
    exact this
  · refine .inr ⟨vs, hn, hg, hl, hs, ?_⟩
    obtain ⟨m, rfl⟩ : ∃ m, n = vs.length + (m + 1) := ⟨n - vs.length - 1, by omega⟩
    rw [State.keygenLoop_gives hg, State.keygenLoop_silent (by exact hs)]

/-! ### `ATK` -/

/-- The counters and the iteration register after iterations on `rs`. -/
def State.atkIterates (s : State) (rs : List Word) : State := rs.foldl State.atkIterate s

theorem State.atkIterates_eq (s : State) (rs : List Word) :
    s.atkIterates rs = { s with
      cnt := rs.foldl s.attackIn.iteration s.cnt
      work := { s.work with it := s.work.it + BitVec.ofNat 16 rs.length } } := by
  induction rs generalizing s with
  | nil => simp [State.atkIterates]
  | cons r rs ih =>
    have e : s.work.it + 1 + BitVec.ofNat 16 rs.length = s.work.it + BitVec.ofNat 16 (rs.length + 1) := by
      rw [BitVec.ofNat_add, BitVec.add_assoc, BitVec.add_comm (BitVec.ofNat 16 rs.length)]; rfl
    rw [List.length_cons, ← e]
    exact ih (s.atkIterate r)

theorem State.atkIterates_drawn (s : State) (rs : List Word) (g : Rng) :
    (s.setRng g).atkIterates rs = (s.atkIterates rs).setRng g := by
  induction rs generalizing s with
  | nil => rfl
  | cons r rs ih => exact ih (s.atkIterate r)

theorem State.atkLoop_gives {s : State} {rs : List Word} (h : s.env.rng.Gives rs) (n : Nat) :
    s.atkLoop (rs.length + n) = ((s.atkIterates rs).setRng (s.env.rng.after rs.length)).atkLoop n := by
  induction rs generalizing s with
  | nil => simp [State.atkIterates]
  | cons r rs ih =>
    obtain ⟨h0, h1⟩ := Rng.gives_cons.1 h
    rw [List.length_cons, show rs.length + 1 + n = (rs.length + n) + 1 by omega]
    simp only [State.atkLoop, State.draw_of_peek h0]
    rw [ih (by exact h1)]
    have e : ((s.drawn 1).atkIterate r).atkIterates rs = (s.atkIterates (r :: rs)).setRng (s.env.rng.after 1) :=
      State.atkIterates_drawn (s.atkIterate r) rs _
    rw [e]
    simp [Nat.add_comm]

theorem State.atkLoop_silent {s : State} (h : s.env.rng.peek 0 = none) (n : Nat) :
    s.atkLoop (n + 1) = { s with fsm := .draw } := by
  simp only [State.atkLoop, State.draw_of_silent h]

/-- Everything the loop of `ATK` can do: all the iterations asked for and the end, or fewer and a hold. -/
theorem State.atkLoop_cases (n : Nat) (s : State) :
    (∃ rs : List Word, rs.length = n ∧ s.env.rng.Gives rs ∧
      s.atkLoop n = ((s.atkIterates rs).setRng (s.env.rng.after n)).atkFinish) ∨
    ∃ rs : List Word, rs.length < n ∧ s.env.rng.Gives rs ∧ s.env.rng.live = false ∧
      (s.env.rng.after rs.length).peek 0 = none ∧
      s.atkLoop n = { (s.atkIterates rs).setRng (s.env.rng.after rs.length) with fsm := .draw } := by
  rcases Rng.gives_cases s.env.rng n with ⟨rs, hn, hg⟩ | ⟨rs, hn, hg, hs, hl⟩
  · refine .inl ⟨rs, hn, hg, ?_⟩
    have := State.atkLoop_gives hg 0
    rw [Nat.add_zero, hn] at this
    exact this
  · refine .inr ⟨rs, hn, hg, hl, hs, ?_⟩
    obtain ⟨m, rfl⟩ : ∃ m, n = rs.length + (m + 1) := ⟨n - rs.length - 1, by omega⟩
    rw [State.atkLoop_gives hg, State.atkLoop_silent (by exact hs)]

end Sys2Proof.Machine
end

