-- ==== Sys2Proof/Laws/Commands.lean ====
section
/-!
SUPPORT. Everything a command can do: answer, refuse, write a register, reset, or run one of the two loops that draw.
-/

namespace Sys2Proof.Machine

/-- The next states of a command. -/
inductive ExecShape (s : State) : Instr → State → Prop where
  | raise (i : Instr) (e : Cause) : ExecShape s i (s.raise e)
  | respond (i : Instr) (d : Word) : ExecShape s i (s.respond d)
  | srst : ExecShape s .srst (s.toReset.respond 0)
  | wrcr {reg : Byte} {v : Word} {r : CrName} {t : State} (hc : s.cf = false) (hw : s.writeCr r v = some t) :
      ExecShape s (.wrcr reg v) (t.respond 0)
  | keygen (hc : s.cf = false) : ExecShape s .keygen (s.keygenStart.keygenLoop 5)
  | atk (hc : s.cf = false) (hk : s.kv = true) : ExecShape s .atk (s.atkClear.atkLoop s.iter.toNat)

theorem execShape_answerTable (s : State) (i : Instr) (d : Word) : ExecShape s i (s.answerTable d) := by
  rcases s.answerTable_cases d with ⟨-, h⟩ | ⟨-, h⟩ <;> rw [h]
  · exact .raise i _
  · exact .respond i _

/-- A command answers one of the next states of its shape. -/
theorem exec_shape {i : Instr} {s t : State} (h : exec i s = .next t) : ExecShape s i t := by
  cases i
  case nop => cases h; exact .respond _ _
  case srst => cases h; exact .srst
  case rdcr reg =>
    simp only [exec, execRdcr] at h
    split at h
    · cases h; exact .raise _ _
    · split at h <;> cases h
      · exact .raise _ _
      · exact .respond _ _
  case wrcr reg v =>
    simp only [exec, execWrcr] at h
    split at h
    · cases h; exact .raise _ _
    · rename_i hc
      split at h
      · cases h; exact .raise _ _
      · split at h <;> cases h
        · exact .raise _ _
        · rename_i hw
          exact .wrcr (by simpa using hc) hw
  case sub n => cases h; exact execShape_answerTable _ _ _
  case isub n => cases h; exact execShape_answerTable _ _ _
  case perm w => cases h; exact execShape_answerTable _ _ _
  case iperm w => cases h; exact execShape_answerTable _ _ _
  case ddtrd dx dy => cases h; exact execShape_answerTable _ _ _
  case keygen =>
    simp only [exec, execKeygen] at h
    split at h <;> cases h
    · exact .raise _ _
    · rename_i hc
      exact .keygen (by simpa using hc)
  case atk =>
    simp only [exec, execAtk] at h
    split at h
    · cases h; exact .raise _ _
    · rename_i hc
      split at h <;> cases h
      · exact .raise _ _
      · rename_i hk
        exact .atk (by simpa using hc) (by simpa using hk)
  case enc w =>
    simp only [exec, execEnc] at h
    split at h
    · cases h; exact .raise _ _
    · split at h <;> cases h
      · exact .raise _ _
      · exact .respond _ _
  case dec w =>
    simp only [exec, execDec] at h
    split at h
    · cases h; exact .raise _ _
    · split at h <;> cases h
      · exact .raise _ _
      · exact .respond _ _
  case cntrd c =>
    simp only [exec, execCntrd] at h
    split at h
    · cases h; exact .raise _ _
    · split at h <;> cases h
      · exact .raise _ _
      · exact .respond _ _
  case lastkey =>
    simp only [exec, execLastkey] at h
    split at h
    · cases h; exact .raise _ _
    · split at h
      · cases h; exact .raise _ _
      · split at h <;> cases h
        · exact .raise _ _
        · exact .respond _ _

/-- Two states with the same five flags have the same sticky flags. -/
theorem sticky_congr {s t : State} (h1 : t.eIll = s.eIll) (h2 : t.eCfg = s.eCfg) (h3 : t.eDiag = s.eDiag)
    (h4 : t.eArg = s.eArg) (h5 : t.eUninit = s.eUninit) (e : Cause) : t.sticky e = s.sticky e := by
  cases e <;> assumption

end Sys2Proof.Machine
end

