-- ==== Sys2Proof/Laws/Decode.lean ====
section
/-!
SUPPORT. The fields of a command word, how a word is put together from them, and what selecting an opcode-table row
says of them (30_encoding.md R71, R72).
-/

namespace Sys2Proof

@[simp] theorem fieldOp_mkWord (op a : Byte) (d : Word) : fieldOp (mkWord op a d) = op := by
  apply BitVec.eq_of_getLsbD_eq
  intro i hi
  simp only [fieldOp, mkWord, BitVec.getLsbD_extractLsb', BitVec.getLsbD_append]
  simp [hi, show 24 + i - 16 - 8 = i by omega, show ¬ 24 + i - 16 < 8 by omega, show ¬ 24 + i < 16 by omega]

@[simp] theorem fieldA_mkWord (op a : Byte) (d : Word) : fieldA (mkWord op a d) = a := by
  apply BitVec.eq_of_getLsbD_eq
  intro i hi
  simp only [fieldA, mkWord, BitVec.getLsbD_extractLsb', BitVec.getLsbD_append]
  simp [hi, show ¬ 16 + i < 16 by omega]

@[simp] theorem fieldD_mkWord (op a : Byte) (d : Word) : fieldD (mkWord op a d) = d := by
  apply BitVec.eq_of_getLsbD_eq
  intro i hi
  simp only [fieldD, mkWord, BitVec.getLsbD_extractLsb', BitVec.getLsbD_append]
  simp [hi]

/-- Every word is its three fields. -/
theorem mkWord_fields (w : CmdWord) : mkWord (fieldOp w) (fieldA w) (fieldD w) = w := by
  apply BitVec.eq_of_getLsbD_eq
  intro i hi
  simp only [fieldD, fieldA, fieldOp, mkWord, BitVec.getLsbD_extractLsb', BitVec.getLsbD_append]
  by_cases h : i < 16
  · simp [h]
  · by_cases h2 : i < 24
    · simp [h, show i - 16 < 8 by omega, show 16 + (i - 16) = i by omega]
    · simp [h, show ¬ i - 16 < 8 by omega, show i - 16 - 8 < 8 by omega, show 24 + (i - 16 - 8) = i by omega]

theorem mkWord_inj {op a op' a' : Byte} {d d' : Word} :
    mkWord op a d = mkWord op' a' d' ↔ op = op' ∧ a = a' ∧ d = d' := by
  constructor
  · intro h
    exact ⟨by simpa using congrArg fieldOp h, by simpa using congrArg fieldA h, by simpa using congrArg fieldD h⟩
  · rintro ⟨rfl, rfl, rfl⟩; rfl

/-- Masking works field by field. -/
theorem mkWord_and (op a op' a' : Byte) (d d' : Word) :
    mkWord op a d &&& mkWord op' a' d' = mkWord (op &&& op') (a &&& a') (d &&& d') := by
  apply BitVec.eq_of_getLsbD_eq
  intro i hi
  simp only [mkWord, BitVec.getLsbD_and, BitVec.getLsbD_append]
  split
  · rfl
  · split <;> rfl

@[simp] theorem nibData_nib (n : Nibble) : (nibData n).extractLsb' 0 4 = n := by revert n; decide

@[simp] theorem nibData_reserved (n : Nibble) : (nibData n).extractLsb' 4 12 = 0 := by revert n; decide

/-- A word of format `N` whose reserved data bits are zero is its nibble. -/
theorem nibData_of_reserved {d : Word} (h : d.extractLsb' 4 12 = 0) : nibData (d.extractLsb' 0 4) = d := by
  apply BitVec.eq_of_getLsbD_eq
  intro i hi
  by_cases h4 : i < 4
  · simp only [nibData, BitVec.getLsbD_append]
    simp [h4]
  · have := congrArg (fun x => x.getLsbD (i - 4)) h
    simp [show i - 4 < 12 by omega, show 4 + (i - 4) = i by omega] at this
    simp only [nibData, BitVec.getLsbD_append]
    simp [h4, this]

@[simp] theorem high_nibble_append (x y : Nibble) : (x ++ y : BitVec 8).extractLsb' 4 4 = x := by revert x y; decide

@[simp] theorem low_nibble_append (x y : Nibble) : (x ++ y : BitVec 8).extractLsb' 0 4 = y := by revert x y; decide

theorem nibbles_append (a : Byte) : (a.extractLsb' 4 4 ++ a.extractLsb' 0 4 : BitVec 8) = a := by revert a; decide

/-! ### When a format's decoder answers a command -/

theorem decodeZ_ok {n : String} {a : Byte} {d : Word} {i j : Instr} :
    decodeZ n a d i = .ok j ↔ a = 0 ∧ d = 0 ∧ i = j := by
  unfold decodeZ
  split <;> simp_all

theorem decodeW_ok {n : String} {a : Byte} {d : Word} {mk : Word → Instr} {j : Instr} :
    decodeW n a d mk = .ok j ↔ a = 0 ∧ mk d = j := by
  unfold decodeW
  split <;> simp_all

theorem decodeN_ok {n : String} {a : Byte} {d : Word} {mk : Nibble → Instr} {j : Instr} :
    decodeN n a d mk = .ok j ↔ a = 0 ∧ ∃ x, d = nibData x ∧ mk x = j := by
  unfold decodeN
  constructor
  · intro h
    split at h
    · rename_i h0
      exact ⟨h0.1, _, (nibData_of_reserved h0.2).symm, Except.ok.inj h⟩
    · cases h
  · rintro ⟨rfl, x, rfl, rfl⟩
    simp

theorem decodeX_ok {n : String} {a : Byte} {d : Word} {mk : Byte → Instr} {j : Instr} :
    decodeX n a d mk = .ok j ↔ d = 0 ∧ mk a = j := by
  unfold decodeX
  split <;> simp_all

/-- What a format asks of the fields `A` and `D` (R72). -/
def Format.admits : Format → Byte → Word → Bool
  | .Z, a, d => a == 0 && d == 0
  | .W, a, _ => a == 0
  | .N, a, d => a == 0 && d.extractLsb' 4 12 == 0
  | .X, _, d => d == 0
  | .XW, _, _ => true

theorem matchWord_eq (r : OpcodeRow) : r.matchWord = mkWord r.op 0 0 := by
  obtain ⟨op, m, f⟩ := r
  show op.zeroExtend 32 <<< 24 = mkWord op 0 0
  revert op; decide

theorem nibble_mask_eq_zero (d : Word) : d &&& 0xFFF0 = 0 ↔ d.extractLsb' 4 12 = 0 := by
  constructor
  · intro h
    apply BitVec.eq_of_getLsbD_eq
    intro i hi
    have h1 := congrArg (fun x => x.getLsbD (4 + i)) h
    simp only [BitVec.getLsbD_and] at h1
    have hm : (0xFFF0#16).getLsbD (4 + i) = true := by interval_cases i <;> rfl
    simpa [hm, hi] using h1
  · intro h
    rw [← nibData_of_reserved h]
    generalize d.extractLsb' 0 4 = n
    revert n; decide

/-- A row selects a word when the `OP` is the row's and the format admits the rest (R72). -/
theorem selects_mkWord (r : OpcodeRow) (op a : Byte) (d : Word) :
    r.selects (mkWord op a d) = (op == r.op && r.format.admits a d) := by
  obtain ⟨o, m, f⟩ := r
  rw [Bool.eq_iff_iff]
  have ones8 (b : Byte) : b &&& 0xFF = b := BitVec.and_allOnes
  have ones16 (e : Word) : e &&& 0xFFFF = e := BitVec.and_allOnes
  simp only [OpcodeRow.selects, matchWord_eq, beq_iff_eq, Bool.and_eq_true]
  cases f
  · rw [show Format.Z.mask = mkWord 0xFF 0xFF 0xFFFF from rfl, mkWord_and, mkWord_inj, ones8, ones8, ones16]
    simp [Format.admits]
  · rw [show Format.W.mask = mkWord 0xFF 0xFF 0 from rfl, mkWord_and, mkWord_inj, ones8, ones8]
    simp [Format.admits]
  · rw [show Format.N.mask = mkWord 0xFF 0xFF 0xFFF0 from rfl, mkWord_and, mkWord_inj, ones8, ones8, nibble_mask_eq_zero]
    simp [Format.admits]
  · rw [show Format.X.mask = mkWord 0xFF 0 0xFFFF from rfl, mkWord_and, mkWord_inj, ones8, ones16]
    simp [Format.admits]
  · rw [show Format.XW.mask = mkWord 0xFF 0 0 from rfl, mkWord_and, mkWord_inj, ones8]
    simp [Format.admits]

end Sys2Proof
end

