-- ==== Sys2Proof/Laws/Fsm.lean ====
section
/-!
SUPPORT. The FSM level: one transition of each state once `rst` is 0, many transitions, and the two scans over the
candidates (43_attack.md R166 to R177).
-/

namespace Sys2Proof.Machine

theorem State.ticks_add (m n : Nat) (s : State) : State.ticks (m + n) s = State.ticks n (State.ticks m s) := by
  induction m generalizing s with
  | zero => rw [Nat.zero_add]; rfl
  | succ m ih => rw [show m + 1 + n = (m + n) + 1 by omega]; exact ih s.tick

theorem State.ticks_succ (n : Nat) (s : State) : State.ticks (n + 1) s = (State.ticks n s).tick :=
  State.ticks_add n 1 s

section
variable {s : State} (hr : s.env.rst = false)
include hr

theorem State.tick_idle (h : s.fsm = .idle) : s.tick = s.tickIdle := by simp [State.tick, hr, h]

theorem State.tick_kg (h : s.fsm = .kg) : s.tick = s.tickKg := by simp [State.tick, hr, h]

theorem State.tick_clr (h : s.fsm = .clr) : s.tick = s.tickClr := by simp [State.tick, hr, h]

theorem State.tick_chk (h : s.fsm = .chk) : s.tick = s.tickChk := by simp [State.tick, hr, h]

theorem State.tick_draw (h : s.fsm = .draw) : s.tick = s.tickDraw := by simp [State.tick, hr, h]

theorem State.tick_q1 (h : s.fsm = .q1) : s.tick = s.tickQ1 := by simp [State.tick, hr, h]

theorem State.tick_q2 (h : s.fsm = .q2) : s.tick = s.tickQ2 := by simp [State.tick, hr, h]

theorem State.tick_filt (h : s.fsm = .filt) : s.tick = s.tickFilt := by simp [State.tick, hr, h]

theorem State.tick_cand (h : s.fsm = .cand) : s.tick = s.tickCand := by simp [State.tick, hr, h]

theorem State.tick_next (h : s.fsm = .next) : s.tick = s.tickNext := by simp [State.tick, hr, h]

theorem State.tick_amax (h : s.fsm = .amax) : s.tick = s.tickAmax := by simp [State.tick, hr, h]

theorem State.tick_rsp (h : s.fsm = .rsp) : s.tick = s.tickRsp := by simp [State.tick, hr, h]

end

/-- Where no whole transaction begins, goes on or ends, a step of the machine is one transition. -/
theorem step_eq_tick {s : State} (h1 : s.fsm ≠ .idle) (h2 : s.fsm ≠ .kg) (h3 : s.fsm ≠ .draw) :
    step s = .next s.tick := by
  unfold step State.tick
  cases s.env.rst
  · cases hf : s.fsm <;> first | rfl | exact absurd hf ‹_›
  · rfl

/-- Everything `S_IDLE` can do with an accepted word (R169): refuse it, begin `KEYGEN` or `ATK`, or execute another
command. -/
theorem State.dispatchWord_cases (s : State) (w : CmdWord) :
    (∃ e, s.dispatchWord w = s.raise e) ∨
      (decode w = .ok .keygen ∧ s.dispatchWord w = { s.keygenStart with fsm := .kg }) ∨
      (decode w = .ok .atk ∧ s.dispatchWord w = { s with fsm := .clr }) ∨
      ∃ i, decode w = .ok i ∧ i ≠ .keygen ∧ i ≠ .atk ∧ exec i s = .next (s.dispatchWord w) := by
  unfold State.dispatchWord
  split
  · exact .inl ⟨_, rfl⟩
  · rename_i i hd
    split
    · exact .inl ⟨_, rfl⟩
    · split
      · exact .inr (.inl ⟨hd, rfl⟩)
      · exact .inr (.inr (.inl ⟨hd, rfl⟩))
      · rename_i h1 h2
        refine .inr (.inr (.inr ⟨i, hd, h1, h2, ?_⟩))
        cases i <;> rfl

/-! ### The scan of `S_CAND` (R174) -/

/-- The counters after the scan has seen the candidates below `n`. -/
def State.scanned (s : State) (n : Nat) : Counters :=
  Vector.ofFn fun i : Fin 256 =>
    if i.val < n ∧ s.attackIn.isMatch s.work.c1 s.work.c2 (BitVec.ofFin i) then s.cnt[i] + 1 else s.cnt[i]

theorem State.scanned_zero (s : State) : s.scanned 0 = s.cnt := by
  apply counters_ext; intro i; simp [State.scanned]

/-- The counters when the scan has seen one more candidate. -/
theorem State.scanned_succ (s : State) (n : Fin 256) :
    s.scanned (n.val + 1) =
      if s.attackIn.isMatch s.work.c1 s.work.c2 (BitVec.ofFin n) then
        (s.scanned n.val).set n.val ((s.scanned n.val)[n.val] + 1) n.isLt
      else s.scanned n.val := by
  apply counters_ext; intro i
  by_cases hi : i = n
  · subst hi
    by_cases hm : s.attackIn.isMatch s.work.c1 s.work.c2 (BitVec.ofFin i) <;> simp [State.scanned, hm]
  · have hv : ¬ n.val = i.val := fun h => hi (Fin.ext h.symm)
    have hlt : i < n ↔ i ≤ n := by omega
    by_cases hm : s.attackIn.isMatch s.work.c1 s.work.c2 (BitVec.ofFin n) <;> simp [State.scanned, hm, hv, hlt]

/-- The state in which the scan of `S_CAND` has the candidates below `n` behind it. -/
abbrev State.candAt (s : State) (n : Nat) : State :=
  { s with cnt := s.scanned n, work := { s.work with cand := BitVec.ofNat 8 n } }

/-- What `S_CAND` makes of the counters, and where it goes (R174). -/
theorem State.tickCand_eq {s : State} {n : Fin 256} {c : Counters} (hn : s.work.cand = BitVec.ofFin n)
    (hc : c = if s.attackIn.isMatch s.work.c1 s.work.c2 (BitVec.ofFin n) then
      s.cnt.set n.val (s.cnt[n.val] + 1) n.isLt else s.cnt) :
    s.tickCand =
      if n.val = 255 then { s with fsm := .next, cnt := c }
      else { s with cnt := c, work := { s.work with cand := BitVec.ofNat 8 (n.val + 1) } } := by
  have h255 : BitVec.ofFin n = 255#8 ↔ n.val = 255 := by rw [← BitVec.toNat_inj]; rfl
  have hsucc : BitVec.ofNat 8 (n.val + 1) = BitVec.ofFin n + 1 := by
    rw [BitVec.ofNat_add, show BitVec.ofNat 8 n.val = BitVec.ofFin n from BitVec.eq_of_toNat_eq (by simp)]; rfl
  subst hc
  unfold State.tickCand
  simp only [hn, h255, hsucc]
  by_cases hm : s.attackIn.isMatch s.work.c1 s.work.c2 (BitVec.ofFin n)
  · simp only [if_pos hm, hn, BitVec.toNat_ofFin]
  · simp only [if_neg hm, hn]

/-- One transition of `S_CAND` sees one candidate. -/
theorem State.tickCand_candAt (s : State) (n : Fin 256) :
    (s.candAt n.val).tickCand =
      if n.val = 255 then { s.candAt 256 with fsm := .next, work := { s.work with cand := 255 } }
      else s.candAt (n.val + 1) := by
  have hf : BitVec.ofNat 8 n.val = BitVec.ofFin n := BitVec.eq_of_toNat_eq (by simp)
  have ha : (s.candAt n.val).attackIn = s.attackIn := by simp only [State.attackIn]
  rw [State.tickCand_eq (n := n) (c := s.scanned (n.val + 1)) hf (by rw [ha]; exact s.scanned_succ n)]
  split
  · rename_i h
    simp only [h]; rfl
  · rfl

/-- The scan of `S_CAND` before its last transition. -/
theorem State.ticks_cand {s : State} (hr : s.env.rst = false) (hf : s.fsm = .cand) (hc : s.work.cand = 0) {n : Nat}
    (hn : n < 256) : State.ticks n s = s.candAt n := by
  induction n with
  | zero =>
    have : s.candAt 0 = s := by
      unfold State.candAt
      rw [State.scanned_zero, show BitVec.ofNat 8 0 = s.work.cand from hc.symm]
    exact this.symm
  | succ n ih =>
    rw [State.ticks_succ, ih (by omega), State.tick_cand (by exact hr) (by exact hf),
      State.tickCand_candAt s ⟨n, by omega⟩, if_neg (by simp; omega)]

/-- The scan of `S_CAND` with its last transition: every candidate has been seen. -/
theorem State.ticks_cand_all {s : State} (hr : s.env.rst = false) (hf : s.fsm = .cand) (hc : s.work.cand = 0) :
    State.ticks 256 s = { s with fsm := .next, cnt := s.scanned 256, work := { s.work with cand := 255 } } := by
  rw [State.ticks_succ, State.ticks_cand hr hf hc (by omega), State.tick_cand (by exact hr) (by exact hf),
    State.tickCand_candAt s ⟨255, by omega⟩, if_pos (by rfl)]


/-- Of a pair that passes the filter, the whole scan counts what the iteration counts (R159, R174). -/
theorem State.scanned_all (s : State) (r : Word) (h1 : s.work.c1 = s.attackIn.enc r)
    (h2 : s.work.c2 = s.attackIn.enc (s.attackIn.p2 r))
    (hp : passesFilter s.attackIn.tmask s.work.c1 s.work.c2 = true) :
    s.scanned 256 = s.attackIn.iteration s.cnt r := by
  apply counters_ext; intro i
  rw [AttackIn.iteration_get, AttackIn.counts, ← h1, ← h2, hp]
  simp [State.scanned]

/-! ### The scan of `S_AMAX` (R176) -/

/-- The best candidate among those below `n`. -/
def scanBest (t : Counters) (n : Nat) : Byte × Word := ((List.finRange 256).take n).foldl (argMaxStep t) (0, 0)

theorem scanBest_succ (t : Counters) (n : Fin 256) : scanBest t (n.val + 1) = argMaxStep t (scanBest t n.val) n := by
  unfold scanBest
  rw [take_finRange_succ, List.foldl_append]; rfl

/-- The state in which the scan of `S_AMAX` has the candidates below `n` behind it. -/
abbrev State.amaxAt (s : State) (n : Nat) : State :=
  { s with work := { s.work with
      cand := BitVec.ofNat 8 n, best := (scanBest s.cnt n).1, bestCnt := (scanBest s.cnt n).2 } }

/-- What `S_AMAX` makes of its working registers, and where it goes (R176). -/
theorem State.tickAmax_eq {s : State} {b : Byte × Word}
    (hb : b = if s.work.bestCnt < s.cnt[s.work.cand.toNat]'s.work.cand.isLt then
      (s.work.cand, s.cnt[s.work.cand.toNat]'s.work.cand.isLt) else (s.work.best, s.work.bestCnt)) :
    s.tickAmax =
      if s.work.cand = 255#8 then
        { s with
          best := b.1, bestCnt := b.2, av := true, fsm := .rsp, rspreg := okResponse (zext16 b.1)
          work := { s.work with best := b.1, bestCnt := b.2 } }
      else { s with work := { s.work with cand := s.work.cand + 1, best := b.1, bestCnt := b.2 } } := by
  subst hb
  unfold State.tickAmax
  by_cases h : s.work.bestCnt < s.cnt[s.work.cand.toNat]'s.work.cand.isLt
  · simp only [if_pos h]
  · simp only [if_neg h]

/-- One transition of `S_AMAX` sees one candidate. -/
theorem State.tickAmax_amaxAt (s : State) (n : Fin 256) :
    (s.amaxAt n.val).tickAmax =
      if n.val = 255 then
        { s with
          best := (scanBest s.cnt (n.val + 1)).1, bestCnt := (scanBest s.cnt (n.val + 1)).2, av := true, fsm := .rsp
          rspreg := okResponse (zext16 (scanBest s.cnt (n.val + 1)).1)
          work := { (s.amaxAt (n.val + 1)).work with cand := 255 } }
      else s.amaxAt (n.val + 1) := by
  have hf : BitVec.ofNat 8 n.val = BitVec.ofFin n := BitVec.eq_of_toNat_eq (by simp)
  have hc : BitVec.ofFin n = 255#8 ↔ n.val = 255 := by
    rw [← BitVec.toNat_inj]; rfl
  rw [State.tickAmax_eq (b := scanBest s.cnt (n.val + 1)) (by simpa [argMaxStep, hf] using scanBest_succ s.cnt n)]
  simp only [hf, hc]
  split
  · rename_i h; rw [hc.2 h]; rfl
  · unfold State.amaxAt; rw [BitVec.ofNat_add, hf]; rfl

/-- The scan of `S_AMAX` before its last transition. -/
theorem State.ticks_amax {s : State} (hr : s.env.rst = false) (hf : s.fsm = .amax) (hc : s.work.cand = 0)
    (hb : s.work.best = 0) (hbc : s.work.bestCnt = 0) {n : Nat} (hn : n < 256) : State.ticks n s = s.amaxAt n := by
  induction n with
  | zero =>
    have : s.amaxAt 0 = s := by
      unfold State.amaxAt
      rw [show BitVec.ofNat 8 0 = s.work.cand from hc.symm, show (scanBest s.cnt 0).1 = s.work.best from hb.symm,
        show (scanBest s.cnt 0).2 = s.work.bestCnt from hbc.symm]
    exact this.symm
  | succ n ih =>
    rw [State.ticks_succ, ih (by omega), State.tick_amax (by exact hr) (by exact hf),
      State.tickAmax_amaxAt s ⟨n, by omega⟩, if_neg (by simp; omega)]

/-- The scan of `S_AMAX` with its last transition: the arg-max is latched and answered. -/
theorem State.ticks_amax_all {s : State} (hr : s.env.rst = false) (hf : s.fsm = .amax) (hc : s.work.cand = 0)
    (hb : s.work.best = 0) (hbc : s.work.bestCnt = 0) :
    State.ticks 256 s = { s.atkFinish with
      work := { s.work with cand := 255, best := (argMax s.cnt).1, bestCnt := (argMax s.cnt).2 } } := by
  rw [State.ticks_succ, State.ticks_amax hr hf hc hb hbc (by omega), State.tick_amax (by exact hr) (by exact hf),
    State.tickAmax_amaxAt s ⟨255, by omega⟩, if_pos (by rfl)]
  have ha : argMax s.cnt = scanBest s.cnt 256 := argMax_eq_take s.cnt
  simp only [State.atkFinish, State.respond, ha]


end Sys2Proof.Machine
end

