-- ==== Sys2Proof/Laws/PerInstr.lean ====
section
/-!
SUPPORT. Statements for all instructions, one lemma per constructor. `SelectsRow`: the encoding of a command matches the
opcode-table row of its own mnemonic, by mask and match (30_encoding.md R72, R73, R79).
-/

namespace Sys2Proof.Laws.SelectsRow

/-- The word that encodes the command selects the row of its mnemonic. -/
def Statement (i : Instr) : Prop := ∃ r ∈ opcodeTable, r.mnemonic = i.mnemonic ∧ r.selects (encode i) = true

theorem nop : Statement .nop := ⟨⟨0x00, "NOP", .Z⟩, by decide, rfl, by decide⟩

theorem srst : Statement .srst := ⟨⟨0x01, "SRST", .Z⟩, by decide, rfl, by decide⟩

theorem rdcr (reg : Byte) : Statement (.rdcr reg) :=
  ⟨⟨0x02, "RDCR", .X⟩, by decide, rfl, by simp [encode, selects_mkWord, Format.admits]⟩

theorem wrcr (reg : Byte) (v : Word) : Statement (.wrcr reg v) :=
  ⟨⟨0x03, "WRCR", .XW⟩, by decide, rfl, by simp [encode, selects_mkWord, Format.admits]⟩

theorem sub (n : Nibble) : Statement (.sub n) :=
  ⟨⟨0x10, "SUB", .N⟩, by decide, rfl, by simp [encode, selects_mkWord, Format.admits]⟩

theorem isub (n : Nibble) : Statement (.isub n) :=
  ⟨⟨0x11, "ISUB", .N⟩, by decide, rfl, by simp [encode, selects_mkWord, Format.admits]⟩

theorem perm (w : Word) : Statement (.perm w) :=
  ⟨⟨0x12, "PERM", .W⟩, by decide, rfl, by simp [encode, selects_mkWord, Format.admits]⟩

theorem iperm (w : Word) : Statement (.iperm w) :=
  ⟨⟨0x13, "IPERM", .W⟩, by decide, rfl, by simp [encode, selects_mkWord, Format.admits]⟩

theorem keygen : Statement .keygen := ⟨⟨0x20, "KEYGEN", .Z⟩, by decide, rfl, by decide⟩

theorem enc (w : Word) : Statement (.enc w) :=
  ⟨⟨0x21, "ENC", .W⟩, by decide, rfl, by simp [encode, selects_mkWord, Format.admits]⟩

theorem dec (w : Word) : Statement (.dec w) :=
  ⟨⟨0x22, "DEC", .W⟩, by decide, rfl, by simp [encode, selects_mkWord, Format.admits]⟩

theorem lastkey : Statement .lastkey := ⟨⟨0x23, "LASTKEY", .Z⟩, by decide, rfl, by decide⟩

theorem ddtrd (dx dy : Nibble) : Statement (.ddtrd dx dy) :=
  ⟨⟨0x30, "DDTRD", .X⟩, by decide, rfl, by simp [encode, selects_mkWord, Format.admits]⟩

theorem atk : Statement .atk := ⟨⟨0x40, "ATK", .Z⟩, by decide, rfl, by decide⟩

theorem cntrd (c : Byte) : Statement (.cntrd c) :=
  ⟨⟨0x41, "CNTRD", .X⟩, by decide, rfl, by simp [encode, selects_mkWord, Format.admits]⟩

end Sys2Proof.Laws.SelectsRow
end

