-- ==== Sys2Proof/Laws/Ports.lean ====
section
/-!
SUPPORT. Which FSM state each output pin shows while `rst` is 0 (10_state.md R40; 43_attack.md R165, R166, R169, R170,
R177).
-/

namespace Sys2Proof.Machine

theorem FsmState.takesRng_iff (f : FsmState) : f.takesRng = true ↔ f = .kg ∨ f = .draw := by
  cases f <;> simp [FsmState.takesRng]

@[simp] theorem State.outputs_cfgFault (s : State) : s.outputs.cfgFault = s.cf := rfl

theorem State.outputs_rsp (s : State) : s.outputs.rsp = if s.fsm = .rsp then s.rspreg else 0 := by
  simp [State.outputs]

section
variable {s : State} (hr : s.env.rst = false)
include hr

theorem State.cmdReady_iff : s.outputs.cmdReady = true ↔ s.fsm = .idle := by simp [State.outputs, hr]

theorem State.rspValid_iff : s.outputs.rspValid = true ↔ s.fsm = .rsp := by simp [State.outputs, hr]

theorem State.rngReady_iff : s.outputs.rngReady = true ↔ s.fsm = .kg ∨ s.fsm = .draw := by
  simp [State.outputs, hr, FsmState.takesRng_iff]

end

end Sys2Proof.Machine
end

