-- ==== Sys2Proof/Laws/Registers.lean ====
section
/-!
SUPPORT. The control-register index (10_state.md R23) and the conditions of `E_ARG` and `E_UNINIT` for `RDCR` and `WRCR`
(60_exceptions.md R215, R216) in terms of it.
-/

namespace Sys2Proof.Machine

@[simp] theorem crOfIndex_indexOfCr (r : CrName) : crOfIndex (indexOfCr r) = some r := by cases r <;> rfl

/-- Indices 9 to 255 name no register. -/
theorem crOfIndex_eq_none : ∀ {reg : Byte}, crOfIndex reg = none ↔ 8 < reg.toNat := by decide +kernel

theorem crOfIndex_eq_some : ∀ {reg : Byte} {r : CrName}, crOfIndex reg = some r ↔ reg = indexOfCr r := by
  have h : ∀ reg : Byte, (crOfIndex reg).all fun r => reg == indexOfCr r := by decide +kernel
  intro reg r
  constructor
  · intro hr
    simpa [hr] using h reg
  · rintro rfl
    exact crOfIndex_indexOfCr r

/-- `RDCR`'s `E_ARG` condition: no such register. -/
theorem argError_rdcr (reg : Byte) : argError (.rdcr reg) = (crOfIndex reg).isNone := by
  rw [Bool.eq_iff_iff, Option.isNone_iff_eq_none, crOfIndex_eq_none]
  simp [argError]

/-- The `E_ARG` condition on `TMASK` data: it is not legal (R29). -/
theorem tmaskData_error (v : Word) :
    (decide (15 < v.toNat) || popcount4 (v.extractLsb' 0 4) != 2) = !legalTmaskData v := by
  have hp : ∀ m : BitVec 4, (popcount4 m != 2) = !legalTmask m := by decide
  have hv : (v.extractLsb' 4 12 = 0) ↔ v.toNat ≤ 15 := by
    rw [← BitVec.toNat_inj]
    simp [Nat.shiftRight_eq_div_pow]
    omega
  rw [hp, legalTmaskData, Bool.not_and]
  congr 1
  rw [Bool.eq_iff_iff, decide_eq_true_iff, Bool.not_eq_true', beq_eq_false_iff_ne, Ne, hv]
  omega

/-- `WRCR`'s `E_ARG` condition: there is no such register, or it does not take the write. -/
theorem argError_wrcr (s : State) (reg : Byte) (v : Word) :
    argError (.wrcr reg v) = ((crOfIndex reg).bind fun r => s.writeCr r v).isNone := by
  rcases hc : crOfIndex reg with _ | r
  · have h8 := crOfIndex_eq_none.1 hc
    have : [3, 4, 5, 6].contains reg.toNat = false := by simp; omega
    simp only [argError, this]
    rfl
  · obtain rfl := crOfIndex_eq_some.1 hc
    cases r
    case tmask =>
      have h := tmaskData_error v
      simp only [argError, indexOfCr, Option.bind_some, State.writeCr]
      rw [h]
      cases legalTmaskData v <;> rfl
    all_goals rfl

/-- `RDCR`'s `E_UNINIT` condition: the register holds a value only while `AV = 1`, and `AV = 0`. -/
theorem uninitError_rdcr (s : State) (reg : Byte) :
    uninitError (.rdcr reg) s = ((crOfIndex reg).any CrName.needsAv && !s.av) := by
  rcases Option.eq_none_or_eq_some (crOfIndex reg) with hc | ⟨r, hc⟩
  · have h8 := crOfIndex_eq_none.1 hc
    have : (reg.toNat == 7 || reg.toNat == 8) = false := by simp; omega
    show ((reg.toNat == 7 || reg.toNat == 8) && !s.av) = _
    rw [this, hc]
    rfl
  · obtain rfl := crOfIndex_eq_some.1 hc
    rw [hc]
    cases r <;> rfl

end Sys2Proof.Machine
end

