-- ==== Sys2Proof/Tests/Slice0.lean ====
section
/-!
SUPPORT. Tests of the model against the spec's vectors (95_test_vectors.md, expected results taken from there), the
well-formedness smoke, and for each obligation with hypotheses a state and operands that meet them.
-/

open Sys2Proof Sys2Proof.Machine

namespace Sys2Proof.Tests

/-! ## Fixtures (95_test_vectors.md section 0) -/

/-- Configuration B: `SBOX[x] = x + 1`, `PERM[i] = i + 1`. -/
def cfgB : Config where
  sbox := #v[1, 2, 3, 4, 5, 6, 7, 8, 9, 10, 11, 12, 13, 14, 15, 0]
  perm := #v[1, 2, 3, 4, 5, 6, 7, 8, 9, 10, 11, 12, 13, 14, 15, 0]
  diagEn := true

/-- Configuration X: E appears twice in `SBOX` and 4 never. -/
def cfgX : Config := { Config.default with sbox := Config.default.sbox.set 1 0xE }

/-- A `PERM` in which destination 0 appears twice. -/
def cfgP : Config := { Config.default with perm := Config.default.perm.set 1 0 }

/-- Configuration A without the diagnostic hook. -/
def cfgNoDiag : Config := { Config.default with diagEn := false }

/-- An identity `SBOX`: here different keys can give the same cipher. -/
def cfgId : Config := { Config.default with sbox := #v[0, 1, 2, 3, 4, 5, 6, 7, 8, 9, 10, 11, 12, 13, 14, 15] }

/-- The test keys `KT`. -/
def keysT : Vector Word 5 := #v[0x295D, 0x8BFA, 0x641B, 0xC910, 0x1869]

/-- The reset state of a configuration. -/
def fresh (c : Config) : State := State.resetWith c Env.reset

/-- A state with valid keys. -/
def keyed (c : Config) (k : Vector Word 5) : State := { fresh c with keys := k, kv := true }

/-- The state with these values lined up on the RNG port and silence after them. -/
def withDraws (s : State) (vs : List Word) : State := s.setRng ⟨vs, false, 0⟩

/-- The response after one step of an idle block to which the word is presented. -/
def answer (s : State) (w : CmdWord) : Option CmdWord :=
  match step (s.presentNow w) with
  | .next t => some t.rspreg
  | _ => none

/-- What one step of an idle block to which the word is presented leaves in a field. -/
def after {α : Type} (s : State) (w : CmdWord) (f : State → α) : Option α :=
  match step (s.presentNow w) with
  | .next t => some (f t)
  | _ => none

/-! ## Well-formedness smoke (00_scope.md R6) -/

theorem test_wellFormed_default : Config.default.wellFormed = true := by decide

theorem test_sbox_no_bijection_refused : cfgX.sboxBijective = false ∧ cfgX.wellFormed = false := by decide

theorem test_perm_no_bijection_refused : cfgP.permBijective = false ∧ cfgP.wellFormed = false := by decide

theorem test_tmask_legal : allNibbles.filter legalTmask = [3, 5, 6, 9, 10, 12] := by decide

/-! ## Encoding: words written out from 30_encoding.md R71 to R73 and 95_test_vectors.md 2.1 -/

theorem test_decode_control :
    decode 0x00000000 = .ok .nop ∧ decode 0x01000000 = .ok .srst ∧ decode 0x02010000 = .ok (.rdcr 1) ∧
      decode 0x03050006 = .ok (.wrcr 5 6) := by decide

theorem test_decode_table_commands :
    decode 0b00010000000000000000000000001011#32 = .ok (.sub 0xB) ∧ decode 0x1100000C = .ok (.isub 0xC) ∧
      decode 0x12000200 = .ok (.perm 0x0200) ∧ decode 0x13000040 = .ok (.iperm 0x0040) := by decide

theorem test_decode_cipher :
    decode 0x20000000 = .ok .keygen ∧ decode 0b00100001000000000001001000110100#32 = .ok (.enc 0x1234) ∧
      decode 0x22005888 = .ok (.dec 0x5888) ∧ decode 0x23000000 = .ok .lastkey := by decide

theorem test_decode_attack :
    decode 0b00110000101100100000000000000000#32 = .ok (.ddtrd 0xB 2) ∧ decode 0x40000000 = .ok .atk ∧
      decode 0x41FF0000 = .ok (.cntrd 255) := by decide

theorem test_decode_illegal :
    decode 0x00000001 = .error (.reservedBits "NOP") ∧ decode 0x02000001 = .error (.reservedBits "RDCR") ∧
      decode 0x10010000 = .error (.reservedBits "SUB") ∧ decode 0x21011234 = .error (.reservedBits "ENC") ∧
      decode 0x30B20001 = .error (.reservedBits "DDTRD") ∧ decode 0xFFFFFFFF = .error .unknownOp := by decide

theorem test_encode :
    encode (.wrcr 6 5000) = 0x03061388 ∧ encode (.ddtrd 0xB 2) = 0x30B20000 ∧ encode (.sub 0xB) = 0x1000000B := by decide

theorem test_decodeTableWord :
    decodeTableWord 32 0x21001234 = some (.enc 0x1234) ∧ decodeTableWord 32 0x40000001 = none := by decide

/-! ## One step (95_test_vectors.md 2.2 to 2.8, section 3) -/

/-- 2.7. -/
theorem test_nop : answer (fresh cfgX) 0x00000000 = some 0 := by decide +kernel

/-- 2.8, P7: `SRST` clears `E_CFG` and not `CF`. -/
theorem test_srst :
    after { fresh cfgX with eCfg := true, iter := 1 } 0x01000000 (fun t => (t.statusWord, t.iter)) =
      some (0x0004, 0x1388) := by decide +kernel

/-- 2.7. -/
theorem test_rdcr :
    answer (fresh .default) 0x02010000 = some 0x14 ∧ answer (fresh cfgNoDiag) 0x02010000 = some 4 ∧
      answer (fresh .default) 0x02070000 = some 0x50000000 := by decide +kernel

/-- P7: `RDCR` is exempt from `E_CFG`; 2.8: the flags in `STATUS`. -/
theorem test_rdcr_fault :
    answer (fresh cfgX) 0x02060000 = some 0x1388 ∧ answer (fresh cfgX) 0x02090000 = some 0x40000000 ∧
      answer { fresh cfgX with eIll := true, eCfg := true, eArg := true } 0x02020000 = some 0x00000B04 := by decide +kernel

/-- 2.7. -/
theorem test_wrcr :
    after (fresh .default) 0x03050006 (fun t => (t.tmask, t.rspreg)) = some (6, 0) ∧
      after (fresh .default) 0x0303FFFF (fun t => t.deltaP) = some 0xFFFF := by decide +kernel

/-- 2.7. -/
theorem test_wrcr_refused :
    after (fresh .default) 0x03050105 (fun t => (t.tmask, t.rspreg)) = some (5, 0x40000000) ∧
      answer (fresh .default) 0x03080001 = some 0x40000000 ∧ answer (fresh cfgX) 0x03050007 = some 0x20000000 := by
  decide +kernel

/-- 2.2. -/
theorem test_sub : answer (fresh .default) 0x1000000B = some 0xC ∧ answer (fresh cfgB) 0x1000000F = some 0 := by
  decide +kernel

/-- 2.2. -/
theorem test_isub : answer (fresh .default) 0x1100000C = some 0xB ∧ answer (fresh cfgB) 0x11000000 = some 0xF := by
  decide +kernel

/-- 2.3. -/
theorem test_perm : answer (fresh .default) 0x12001234 = some 0x016A ∧ answer (fresh cfgB) 0x12008000 = some 1 := by
  decide +kernel

/-- 2.3. -/
theorem test_iperm : answer (fresh .default) 0x1300ABCD = some 0xF3C5 ∧ answer (fresh cfgB) 0x13001234 = some 0x091A := by
  decide +kernel

/-- 2.5. -/
theorem test_ddtrd :
    answer (fresh .default) 0x30B20000 = some 8 ∧ answer (fresh .default) 0x30000000 = some 16 ∧
      answer (fresh cfgB) 0x30880000 = some 16 ∧ answer (fresh cfgB) 0x30F90000 = some 4 := by decide +kernel

/-- P1; 2.4: the draws are the keys, in order. -/
theorem test_keygen :
    after (withDraws { fresh .default with av := true } [0x295D, 0x8BFA, 0x641B, 0xC910, 0x1869, 0x82F6]) 0x20000000
      (fun t => (t.keys, t.kv, t.av, t.rspreg, t.env.rng.queue)) = some (keysT, true, false, 0, [0x82F6]) := by
  decide +kernel

/-- 00_scope.md R12, 43_attack.md R166: with two values only, `KEYGEN` holds. -/
theorem test_keygen_holds :
    after (withDraws (fresh .default) [0x295D, 0x8BFA]) 0x20000000
      (fun t => (t.fsm, t.work.kidx, t.kv)) = some (.kg, 2, false) := by decide +kernel

/-- 2.4. -/
theorem test_enc :
    answer (keyed .default keysT) 0x21001234 = some 0x5888 ∧ answer (keyed cfgB keysT) 0x21001234 = some 0xDCE4 := by
  decide +kernel

/-- 2.4. -/
theorem test_dec :
    answer (keyed .default keysT) 0x2200FFFF = some 0x5269 ∧ answer (keyed cfgB keysT) 0x2200DCE4 = some 0x1234 := by
  decide +kernel

/-- 2.4, 2.8. -/
theorem test_lastkey :
    answer (keyed .default keysT) 0x23000000 = some 0x1869 ∧ answer (keyed cfgNoDiag keysT) 0x23000000 = some 0x30000000 ∧
      answer (fresh .default) 0x23000000 = some 0x50000000 ∧ answer (fresh cfgNoDiag) 0x23000001 = some 0x10000000 := by
  decide +kernel

/-- 2.6, V-ATK-3: the pair drawn as `0117` counts for `77 79 87 89` and for no neighbour. -/
theorem test_atk_counts :
    ([0x76, 0x77, 0x78, 0x79, 0x87, 0x88, 0x89].map ((keyed .default keysT).attackIn.counts 0x0117)) =
      [false, true, false, true, true, false, true] := by decide +kernel

/-- 2.6, V-ATK-2: the filter discards the pair. -/
theorem test_atk_filter :
    after (withDraws { keyed .default keysT with iter := 1 } [0x82F6]) 0x40000000
      (fun t => (t.rspreg, t.av)) = some (0, true) := by decide +kernel

/-- 2.6. -/
theorem test_cntrd :
    answer { keyed .default keysT with av := true, cnt := zeroCounters.set 0x89 2 } 0x41890000 = some 2 ∧
      answer (keyed .default keysT) 0x41FF0000 = some 0x50000000 := by decide +kernel

/-- P5: an illegal word sets `E_ILL`; 2.8: also under a configuration fault. -/
theorem test_illegal :
    after (fresh cfgX) 0x04000000 (fun t => (t.rspreg, t.statusWord)) = some (0x10000000, 0x0104) := by decide +kernel

/-! ## The attack's functions (43_attack.md R156 to R158, 95_test_vectors.md V-ATK-9) -/

theorem test_place_and_match :
    place 0b0110 0x64 = 0x0640 ∧ fmask 0b0110 = 0xF00F ∧
      partialDiff Config.default.subInv 0b0110 0xDECC 0xD20C 0x64 = 0x0660 := by decide +kernel

/-- V-L1-9: a tie goes to the lowest candidate. -/
theorem test_argMax_tie : argMax ((zeroCounters.set 0x77 1).set 0x89 1) = (0x77, 1) := by decide +kernel

/-! ## The pins (10_state.md R40) -/

theorem test_outputs_rsp :
    (State.reset.respond 0x1234).outputs = ⟨false, true, 0x1234, false, false⟩ ∧
      (fresh cfgX).outputs = ⟨true, false, 0, false, true⟩ := by decide

/-! ## The FSM level: the last transition of `S_KG` and a discarded pair in `S_FILT` (43_attack.md R166, R173) -/

theorem test_tick_kg :
    let s := { withDraws (fresh .default) [0x1869] with fsm := .kg }
    let t := { s with work := { s.work with kidx := 4 } }.tick
    (t.fsm, t.kv, t.keys[4]) = (.rsp, true, 0x1869) := by decide +kernel

theorem test_tick_filt :
    let s := { keyed .default keysT with fsm := .filt }
    ({ s with work := { s.work with c1 := 0x767F, c2 := 0x227D } }.tick).fsm = .next ∧
      ({ s with work := { s.work with c1 := 0x35E6, c2 := 0x3AE8 } }.tick).fsm = .cand := by decide +kernel

/-! ## The assembler (30_encoding.md R79, R80) -/

theorem test_assemble :
    Asm.assembleLine " WRCR ITER, 5000 ; default".toList = some [0x03061388] ∧
      Asm.assembleLine "DDTRD 0xB, 2".toList = some [0x30B20000] ∧
      Asm.assembleLine "ATKCFG 0x0B00, 0x0606, 0b0101, 4".toList =
        some [0x03030B00, 0x03040606, 0x03050005, 0x03060004] := by decide +kernel

theorem test_assemble_rejects :
    Asm.assembleLine "SUB 16".toList = none ∧ Asm.assembleLine "ENC 65536".toList = none ∧
      Asm.assembleLine ".word 0xFFFFFFFF".toList = some [0xFFFFFFFF] := by decide +kernel

/-! ## Witnesses: for each obligation with hypotheses, a state and operands that meet them together -/

/-- `NOP` presented to the reset state. -/
def nopNext : State := State.reset.presentNow 0

/-- Unknown `OP` presented to the reset state. -/
def illegalNext : State := State.reset.presentNow 0x04000000

theorem witness_IllegalWordsAreThoseNoRowSelects :
    (∃ e, decode 0x00000001 = .error e) ∧ (⟨0x00, "NOP", .Z⟩ : OpcodeRow) ∈ opcodeTable ∧
      OpcodeRow.selects ⟨0x00, "NOP", .Z⟩ 0 = true := by
  exact ⟨⟨.reservedBits "NOP", by decide⟩, by decide, by decide⟩

theorem witness_StepRunsDecodedCommand :
    nopNext.env.rst = false ∧ nopNext.fsm = .idle ∧ nopNext.env.cmdq = [0] ∧ decode 0 = .ok .nop := by decide

theorem witness_IllegalWordIsRefused :
    illegalNext.env.rst = false ∧ illegalNext.fsm = .idle ∧ illegalNext.env.cmdq = [0x04000000] ∧
      decode 0x04000000 = .error .unknownOp := by decide

theorem witness_RefusalSetsOneFlagAndAnswersCode :
    State.reset.env.rst = false ∧ State.reset.env.rspReady = true := by decide

/-- Every clause, and for every cause a command refused with it. -/
theorem witness_RefusalsFollowThePriority :
    decode 0x04000000 = .error .unknownOp ∧ decode 0x21000000 = .ok (.enc 0) ∧
      refusalOf (.enc 0) (fresh cfgX) = some .cfg ∧ refusalOf .lastkey (fresh cfgNoDiag) = some .diag ∧
      refusalOf (.rdcr 9) State.reset = some .arg ∧ refusalOf (.enc 0) State.reset = some .uninit ∧
      refusalOf .nop State.reset = none ∧ Instr.nop ≠ .srst := by decide +kernel

/-- Each way to a response: a command, a refused one, a step on an illegal word, a resumed `KEYGEN`, a transition. -/
theorem witness_ResponseWordsAreWellFormed :
    let k := { withDraws State.reset [0x1869] with fsm := .kg }
    let k4 := { k with work := { k.work with kidx := 4 } }
    (exec .nop State.reset = .next (State.reset.respond 0) ∧ (State.reset.respond 0).fsm = .rsp) ∧
      (exec (.enc 0) State.reset = .next (State.reset.raise .uninit) ∧
        (State.reset.raise .uninit).rspreg.extractLsb' 28 4 ≠ 0) ∧
      (illegalNext.fsm ≠ .rsp ∧ step illegalNext = .next (illegalNext.accept.raise .ill)) ∧
      (k4.fsm ≠ .rsp ∧ step k4 = .next k4.keygenResume ∧ k4.keygenResume.fsm = .rsp) ∧ k4.tick.fsm = .rsp :=
  ⟨⟨rfl, rfl⟩, ⟨rfl, by decide⟩, ⟨by decide, rfl⟩, ⟨by decide, rfl, by decide⟩, by decide⟩

theorem witness_FaultMeansATableIsNoBijection :
    cfgX.fault = true ∧ cfgP.fault = true ∧ Config.default.fault = false := by decide

theorem witness_FaultRefusesEveryOtherCommand :
    (fresh cfgX).cf = true ∧ Instr.keygen ≠ .nop ∧ Instr.keygen ≠ .srst ∧ ∀ reg, Instr.keygen ≠ .rdcr reg := by
  exact ⟨by decide, by decide, by decide, fun _ => by simp⟩

/-- The second clause: a command under `CF = 0`, and `NOP` under `CF = 1`. -/
theorem witness_FaultRefusesEveryOtherCommand_never :
    State.reset.cf = false ∧ exec (.sub 0) State.reset = .next (State.reset.respond 0xE) ∧
      exec .nop (fresh cfgX) = .next ((fresh cfgX).respond 0) := ⟨by decide, rfl, rfl⟩

theorem witness_SubAnswersTheTableEntry : State.reset.cf = false := by decide

theorem witness_IsubAnswersTheUniquePreimage : State.reset.cf = false ∧ State.reset.cfg.fault = false := by decide

theorem witness_PermMovesEveryBitToItsDestination : (fresh cfgB).cf = false ∧ (fresh cfgB).cfg.fault = false := by decide

theorem witness_IpermMovesEveryBitBack : (fresh cfgB).cf = false ∧ (fresh cfgB).cfg.fault = false := by decide

theorem witness_TablesAndTheirInversesCancel : cfgB.fault = false := by decide

theorem witness_PermuteIsLinearAndKeepsPopcount : cfgB.fault = false := by decide

theorem witness_DdtrdAnswersTheDifferenceCount : (fresh cfgB).cf = false := by decide

theorem witness_DdtRowsAndColumns :
    Function.Bijective Config.default.sub ∧ (1 : Nibble) ≠ 0 ∧ (15 : Nibble) ≠ 0 := by
  refine ⟨⟨?_, ?_⟩, by decide, by decide⟩
  · unfold Function.Injective; decide
  · unfold Function.Surjective; decide

theorem witness_EncAndDecAnswerTheUnrolledCipher :
    (0 < 4 ∧ 3 < 4) ∧ (keyed .default keysT).cf = false ∧ (keyed .default keysT).kv = true := by decide

theorem witness_CipherRoundTrip : cfgB.fault = false := by decide

theorem witness_KeygenLoadsTheNextFiveDraws :
    let s := withDraws State.reset [0x295D, 0x8BFA, 0x641B, 0xC910, 0x1869]
    s.cf = false ∧ ∀ k : Fin 5, s.env.rng.peek k.val = some keysT[k] := by decide

theorem witness_LastkeyAnswersTheLastSubkey :
    (keyed .default keysT).cf = false ∧ (keyed .default keysT).cfg.diagEn = true ∧ (keyed .default keysT).kv = true := by
  decide

/-- One draw, and the boundary of none. -/
theorem witness_AtkCountsMatchingPairsAndAnswersArgMax :
    let s := withDraws { keyed .default keysT with iter := 1 } [0x0117]
    let z := { keyed .default keysT with iter := 0 }
    (s.cf = false ∧ s.kv = true ∧ [(0x0117 : Word)].length = s.iter.toNat ∧ s.env.rng.peek 0 = some 0x0117) ∧
      z.cf = false ∧ z.kv = true ∧ ([] : List Word).length = z.iter.toNat := by decide

theorem witness_CountersNeverExceedIterations :
    let z := { keyed .default keysT with iter := 0 }
    z.cf = false ∧ z.kv = true ∧ exec .atk z = .next z.atkClear.atkFinish ∧ z.atkClear.atkFinish.fsm = .rsp :=
  ⟨by decide, rfl, rfl, rfl⟩

theorem witness_CountersIgnoreTheOrderOfDraws : [(0x0117 : Word), 0x0118].Perm [0x0118, 0x0117] := by decide

/-- With an identity `SBOX`, keys 3 and 4 with the same change cancel: two different key sets, one cipher. -/
theorem witness_AttackSeesOnlyTheOracle :
    let s := { keyed cfgId (Vector.replicate 5 0) with iter := 0 }
    (#v[0, 0, 0, 1, 1] : Vector Word 5) ≠ s.keys ∧
      (∀ p, s.cfg.enc #v[0, 0, 0, 1, 1] p = s.cfg.enc s.keys p) ∧ exec .atk s = .next s.atkClear.atkFinish := by
  have hs : ∀ x, cfgId.sub x = x := by decide
  have hw : ∀ w, cfgId.subWord w = w := fun w => by simp only [Config.subWord, hs, joinNibbles_nib]
  refine ⟨by decide, fun p => ?_, rfl⟩
  show cfgId.enc _ p = cfgId.enc (Vector.replicate 5 0) p
  simp [Config.enc, hw]

theorem witness_TargetedPositionsAndFilterMask :
    legalTmask 0b0011 = true ∧ legalTmask 0b1100 = true ∧ lowPos 0b0011 ≠ 3 ∧ highPos 0b0011 ≠ 3 := by decide

/-- Both sides of the equivalence hold for a real pair (95_test_vectors.md 2.6, V-ATK-3). -/
theorem witness_MatchIsDecidedNibbleByNibble :
    legalTmask 0b0101 = true ∧ partialDiff Config.default.subInv 0b0101 0x35E6 0x3AE8 0x77 = 0x0606 := by decide +kernel

/-- The hypotheses of the five clauses, each with the identity as oracle and as S-box inverse. -/
theorem witness_AttackCornerCases :
    let x : AttackIn := ⟨id, id, 0, 0, 0b0101⟩
    legalTmask x.tmask = true ∧ (x.deltaP = 0 ∧ x.targetDu = 0 ∧ [(0x0117 : Word)].length < 2 ^ 16) ∧
      ({ x with targetDu := 0x0606 } : AttackIn).targetDu ≠ 0 ∧
      ({ x with targetDu := 0x0616 } : AttackIn).targetDu &&& fmask 0b0101 ≠ 0 ∧
      ({ x with deltaP := 0x0B00 } : AttackIn).deltaP ≠ 0 ∧ Function.Injective x.enc ∧ Function.Injective x.inv :=
  ⟨by decide, ⟨rfl, rfl, by decide⟩, by decide, by decide, by decide, fun _ _ h => h, fun _ _ h => h⟩

theorem witness_TrueKeyMatchesARightPair :
    Config.default.fault = false ∧ legalTmask 0b0101 = true ∧ (0x1234 ^^^ 0x1432 : Word) &&& fmask 0b0101 = 0 := by decide

theorem witness_CntrdAnswersTheCounter :
    let s := { keyed .default keysT with av := true }
    s.cf = false ∧ s.av = true := by decide

/-- A `KEYGEN` held after two draws, and an `ATK` held before its first. -/
theorem witness_HeldCommandResumesWhereItStopped :
    let s := withDraws State.reset [0x295D, 0x8BFA]
    let a := withDraws (keyed .default keysT) []
    (s.env.rst = false ∧ s.env.rng.live = false ∧ ∃ t, exec .keygen s = .next t ∧ t.fsm = .kg) ∧
      a.env.rst = false ∧ a.env.rng.live = false ∧ ∃ t, exec .atk a = .next t ∧ t.fsm = .draw := by
  refine ⟨⟨rfl, rfl, _, rfl, ?_⟩, rfl, rfl, _, rfl, ?_⟩ <;> decide

theorem witness_RdcrAnswersTheRegister : ({ State.reset with av := true } : State).av = true := rfl

theorem witness_MissingThingsAreRefused :
    9 ≤ (9 : Byte).toNat ∧ 9 ≤ (255 : Byte).toNat ∧ State.reset.av = false ∧ State.reset.cf = false ∧
      State.reset.kv = false ∧ State.reset.cfg.diagEn = true ∧ (fresh cfgNoDiag).cf = false ∧
      (fresh cfgNoDiag).cfg.diagEn = false := by decide

theorem witness_WrcrWritesTheNamedRegister :
    State.reset.cf = false ∧ 0b1100#4 ∈ [0b0011#4, 0b0101#4, 0b0110#4, 0b1001#4, 0b1010#4, 0b1100#4] := by decide

/-- A register below and one above the writable ones, and `TMASK` data with a wrong count and with a high bit. -/
theorem witness_WrcrRefusesIllegalWrites :
    State.reset.cf = false ∧ (2 : Byte).toNat ∉ [3, 4, 5, 6] ∧ (7 : Byte).toNat ∉ [3, 4, 5, 6] ∧
      ((5 : Byte).toNat = 5 ∧ (7 : Word).toNat ∉ [3, 5, 6, 9, 10, 12]) ∧ (0x0105 : Word).toNat ∉ [3, 5, 6, 9, 10, 12] := by
  decide

theorem witness_OnlyKeygenAndSrstWriteKeys :
    Instr.nop ≠ .keygen ∧ Instr.nop ≠ .srst ∧ exec .nop State.reset = .next (State.reset.respond 0) :=
  ⟨by decide, by decide, rfl⟩

theorem witness_OnlyAtkAndSrstWriteResults :
    Instr.nop ≠ .atk ∧ Instr.nop ≠ .srst ∧ Instr.nop ≠ .keygen ∧
      exec .nop State.reset = .next (State.reset.respond 0) := ⟨by decide, by decide, by decide, rfl⟩

theorem witness_OnlyWrcrAndSrstWriteAttackRegisters :
    Instr.nop ≠ .srst ∧ (∀ reg v, Instr.nop ≠ .wrcr reg v) ∧ exec .nop State.reset = .next (State.reset.respond 0) :=
  ⟨by decide, fun _ _ => by simp, rfl⟩

theorem witness_OnlyKeygenAndAtkDraw :
    (∃ t, exec .keygen State.reset = .next t) ∧ (∃ t, exec .atk State.reset = .next t) ∧
      exec .nop State.reset = .next (State.reset.respond 0) ∧ Instr.nop ≠ .keygen ∧ Instr.nop ≠ .atk :=
  ⟨⟨_, rfl⟩, ⟨_, rfl⟩, rfl, by decide, by decide⟩

theorem witness_KeysAreUnobservableWithoutKv : State.reset.kv = false := rfl

theorem witness_ResultsAreUnobservableWithoutAv : State.reset.av = false := rfl

/-- The invariant's states are not the reset state alone: one inside `S_CAND`. -/
def insideCand : State := { keyed .default keysT with fsm := .cand, cnt := zeroCounters }

theorem reset_inv : State.reset.Inv := ⟨by decide, ⟨rfl, by decide⟩, fun h => (by cases h), trivial⟩

theorem insideCand_inv : insideCand.Inv := by
  have h0 : ∀ i : Fin 256, (insideCand.cnt[i]).toNat = 0 := fun i => by simp [insideCand, zeroCounters]
  refine ⟨by decide, ⟨rfl, ?_⟩, fun h => (by cases h), ?_⟩
  · intro h
    exact absurd h (by decide)
  · exact ⟨⟨rfl, rfl, fun i => by rw [h0]; omega⟩, by decide, fun i _ => by rw [h0]; omega⟩

theorem witness_StepKeepsTheInvariant :
    State.reset.Inv ∧ step State.reset = .next State.reset ∧ insideCand.Inv ∧
      step insideCand = .next insideCand.tickCand := ⟨reset_inv, rfl, insideCand_inv, rfl⟩

theorem witness_TickKeepsTheInvariant : State.reset.Inv ∧ insideCand.Inv := ⟨reset_inv, insideCand_inv⟩

theorem witness_ReachableStatesMeetTheInvariant : Reachable (State.reset.act (.present 0)) := .outside _ (.reset _ _)

theorem witness_FsmRefinesTheTransactionLevel :
    insideCand.Inv ∧ step insideCand = .next insideCand.tickCand := ⟨insideCand_inv, rfl⟩

theorem witness_CandidateScansTakeExactly256Visits :
    let a := { insideCand with fsm := .amax }
    (insideCand.env.rst = false ∧ insideCand.work.cand = 0 ∧ insideCand.fsm = .cand) ∧
      a.env.rst = false ∧ a.work.cand = 0 ∧ a.fsm = .amax := by decide

theorem witness_AcceptedCommandsAreAnswered :
    nopNext.env.rst = false ∧ nopNext.fsm = .idle ∧ nopNext.env.cmdq = [0] ∧ nopNext.env.rng.live = true ∧
      nopNext.env.rspReady = true := by decide

theorem witness_ResetLeavesTheSpecifiedValues : Env.reset.rst = false := rfl

theorem witness_HardResetOverridesEverything : (insideCand.act (.setRst true)).env.rst = true := rfl

/-- Every clause: held in `S_KG` and `S_DRAW`, idle, and at an answer not taken and taken. -/
theorem witness_HoldsChangeNothing :
    let k := { withDraws State.reset [] with fsm := .kg }
    let d := { withDraws (keyed .default keysT) [] with fsm := .draw, cnt := zeroCounters }
    let r := { State.reset with fsm := .rsp }
    (k.env.rst = false ∧ k.fsmInv ∧ k.fsm = .kg ∧ k.env.rng.peek 0 = none) ∧
      (d.env.rst = false ∧ d.fsmInv ∧ d.fsm = .draw ∧ d.env.rng.peek 0 = none) ∧
      (State.reset.env.rst = false ∧ State.reset.fsmInv ∧ State.reset.fsm = .idle ∧ State.reset.env.cmdq = []) ∧
      (r.env.rst = false ∧ r.fsmInv ∧ r.fsm = .rsp ∧ r.env.rspReady = true) ∧
      (r.act (.setRspReady false)).fsmInv ∧ (r.act (.setRspReady false)).env.rspReady = false := by
  refine ⟨⟨rfl, ?_, rfl, rfl⟩, ⟨rfl, ?_, rfl, rfl⟩, ⟨rfl, trivial, rfl, rfl⟩, ⟨rfl, trivial, rfl, rfl⟩, trivial, rfl⟩
  · show (0 : BitVec 3).toNat ≤ 4
    decide
  · exact ⟨⟨rfl, rfl, fun i => by simp [zeroCounters]⟩, by decide⟩

/-- The clauses on the pins: a word presented to an idle block, a value presented at a draw, and a state in which the
block's side of every handshake is 0. -/
theorem witness_HoldsChangeNothing_pins :
    let k := { withDraws State.reset [0x1869] with fsm := .kg }
    (nopNext.env.rst = false ∧ nopNext.outputs.cmdReady = true ∧ nopNext.env.cmdq = [0]) ∧
      (k.env.rst = false ∧ k.outputs.rngReady = true ∧ k.env.rng.peek 0 ≠ none) ∧
      insideCand.env.rst = false ∧ insideCand.outputs.cmdReady = false ∧ insideCand.outputs.rngReady = false ∧
      insideCand.outputs.rspValid = false := by decide

theorem witness_AssembledWordsAreCommands :
    Asm.assembleLine "NOP".toList = some [0] ∧
      ((Asm.trim (Asm.dropComment "NOP".toList)).takeWhile fun ch => !Asm.isBlank ch) ≠ ".word".toList := by
  decide +kernel

/-- A number in each base, at the last value of a 16-bit field, the first beyond it, and one of each other field. -/
theorem witness_LinesStandForTheirWords :
    (10, []) ∈ [((10 : Nat), ([] : List Char)), (16, ['0', 'x']), (2, ['0', 'b'])] ∧ [6, 5, 5, 3, 5] ≠ [] ∧
      (∀ d ∈ [6, 5, 5, 3, 5], d < 10) ∧ Asm.number "65535".toList = some 65535 ∧
      Asm.number "65536".toList = some 65536 ∧ Asm.number "0xB".toList = some 11 ∧
      Asm.number "0b0101".toList = some 5 ∧ ("NOP", Instr.nop) ∈ [("NOP", Instr.nop)] := by decide +kernel

end Sys2Proof.Tests
end

section
/-!
The statements of 00_scope.md R11 and R12: every command and every step has a next state, and only `KEYGEN` and `ATK`
draw (20_memory.md R59, R62).
-/

namespace Sys2Proof.Machine

/-! ### Totality (R12) -/

theorem exec_total (i : Instr) (s : State) : ∃ t, exec i s = .next t := by
  cases i <;> exact ⟨_, rfl⟩

theorem State.runWord_total (s : State) (w : CmdWord) : ∃ t, s.runWord w = .next t := by
  unfold State.runWord
  split
  · exact ⟨_, rfl⟩
  · exact exec_total _ s

theorem State.transact_total (s : State) : ∃ t, s.transact = .next t := by
  unfold State.transact
  split
  · exact ⟨_, rfl⟩
  · exact State.runWord_total _ _

theorem step_total (s : State) : ∃ t, step s = .next t := by
  unfold step
  split
  · exact ⟨_, rfl⟩
  · cases s.fsm
    case idle => exact s.transact_total
    all_goals exact ⟨_, rfl⟩

/-- Settles O7: no arm of `exec` faults or refuses, and a step is a command, a transition or a loop. -/
theorem everyStepHasANextState : Obligations.EveryStepHasANextState := ⟨exec_total, step_total⟩

/-! ### What a command does to the outside (R59, R62) -/

theorem State.writeCr_env {s t : State} {r : CrName} {v : Word} (h : s.writeCr r v = some t) : t.env = s.env := by
  rcases State.writeCr_some h with ⟨-, rfl⟩ | ⟨-, rfl⟩ | ⟨-, -, rfl⟩ | ⟨-, rfl⟩ <;> rfl

theorem State.putKeys_env (s : State) (vs : List Word) : (s.putKeys vs).env = s.env := by
  obtain ⟨ks, h⟩ := s.putKeys_eq vs
  rw [h]

theorem State.atkIterates_env (s : State) (rs : List Word) : (s.atkIterates rs).env = s.env := by
  rw [State.atkIterates_eq]

/-- The loop of `KEYGEN` changes nothing of the outside but the RNG's position, by at most the keys asked for. -/
theorem State.keygenLoop_env (n : Nat) (s : State) :
    ∃ k ≤ n, (s.keygenLoop n).env = { s.env with rng := s.env.rng.after k } := by
  rcases State.keygenLoop_cases n s with ⟨vs, -, -, h⟩ | ⟨vs, hn, -, -, -, h⟩
  · exact ⟨n, le_rfl, by simp [h, State.putKeys_env]⟩
  · exact ⟨vs.length, hn.le, by simp [h, State.putKeys_env]⟩

/-- The loop of `ATK` changes nothing of the outside but the RNG's position, by at most the iterations asked for. -/
theorem State.atkLoop_env (n : Nat) (s : State) :
    ∃ k ≤ n, (s.atkLoop n).env = { s.env with rng := s.env.rng.after k } := by
  rcases State.atkLoop_cases n s with ⟨rs, -, -, h⟩ | ⟨rs, hn, -, -, -, h⟩
  · exact ⟨n, le_rfl, by simp [h, State.atkIterates_env]⟩
  · exact ⟨rs.length, hn.le, by simp [h, State.atkIterates_env]⟩

/-- Settles O46, by the shapes of the next states: only the two loops draw. -/
theorem onlyKeygenAndAtkDraw : Obligations.OnlyKeygenAndAtkDraw := by
  unfold Obligations.OnlyKeygenAndAtkDraw
  intro i s t h
  have drawsNone (he : t.env = s.env) : ∃ n, t.env = { s.env with rng := s.env.rng.after n } ∧
      (i ≠ .keygen → i ≠ .atk → n = 0) ∧ (i = .keygen → n ≤ 5) ∧ (i = .atk → n ≤ s.iter.toNat) :=
    ⟨0, by simp [he], fun _ _ => rfl, fun _ => by omega, fun _ => by omega⟩
  cases exec_shape h with
  | raise _ e => exact drawsNone (s.raise_env e)
  | respond _ d => exact drawsNone rfl
  | srst => exact drawsNone rfl
  | wrcr _ hw => exact drawsNone (by rw [State.respond_env, State.writeCr_env hw])
  | keygen _ =>
    obtain ⟨k, hk, he⟩ := s.keygenStart.keygenLoop_env 5
    exact ⟨k, he, fun h => absurd rfl h, fun _ => hk, nofun⟩
  | atk _ _ =>
    obtain ⟨k, hk, he⟩ := s.atkClear.atkLoop_env s.iter.toNat
    exact ⟨k, he, fun _ h => absurd rfl h, nofun, fun _ => hk⟩

end Sys2Proof.Machine
end

section
/-!
The check sequence of `S_IDLE` (43_attack.md R169; 60_exceptions.md R219) against the commands of the transaction level:
each refuses with the same cause, and of a command that does not draw both do the same.
-/

namespace Sys2Proof.Machine

/-- Under a configuration fault every command but `NOP`, `SRST` and `RDCR` is refused with `E_CFG` (R213). -/
theorem exec_of_fault {i : Instr} {s : State} (hc : s.cf = true) (hw : worksUnderFault i = false) :
    exec i s = .next (s.raise .cfg) := by
  cases i
  case nop | srst | rdcr => cases hw
  all_goals exact congrArg _ (if_pos hc)

/-- Without `DIAG_EN`, `LASTKEY` is refused with `E_DIAG` (R214). -/
theorem exec_lastkey_of_no_diag {s : State} (hc : s.cf = false) (hd : s.cfg.diagEn = false) :
    exec .lastkey s = .next (s.raise .diag) := by
  simp [exec, execLastkey, hc, hd]

/-- `RDCR` and `WRCR` are refused with `E_ARG` where their operands are out of range (R215). -/
theorem exec_of_argError {i : Instr} {s : State} (hc : s.cf = true → worksUnderFault i = true)
    (ha : argError i = true) : exec i s = .next (s.raise .arg) := by
  cases i
  case rdcr reg =>
    rw [argError_rdcr, Option.isNone_iff_eq_none] at ha
    simp [exec, execRdcr, ha]
  case wrcr reg v =>
    rw [argError_wrcr s, Option.isNone_iff_eq_none] at ha
    have hc : s.cf = false := by simpa [worksUnderFault] using hc
    cases hr : crOfIndex reg with
    | none => simp [exec, execWrcr, hc, hr]
    | some r =>
      have hw : s.writeCr r v = none := by simpa [hr] using ha
      simp [exec, execWrcr, hc, hr, hw]
  all_goals cases ha

/-- A command that needs keys or results that do not exist is refused with `E_UNINIT`, if no earlier check refuses it
(R216, R219). -/
theorem exec_of_uninitError {i : Instr} {s : State} (hc : s.cf = true → worksUnderFault i = true)
    (hd : i = .lastkey → s.cfg.diagEn = true) (hu : uninitError i s = true) :
    exec i s = .next (s.raise .uninit) := by
  cases i
  case rdcr reg =>
    rw [uninitError_rdcr] at hu
    cases hr : crOfIndex reg with
    | none => simp [hr] at hu
    | some r =>
      have hu : (r.needsAv && !s.av) = true := by simpa [hr] using hu
      simp [exec, execRdcr, hr, hu]
  case enc | dec | atk =>
    have hc : s.cf = false := by simpa [worksUnderFault] using hc
    have hk : s.kv = false := by simpa [uninitError] using hu
    simp [exec, execEnc, execDec, execAtk, hc, hk]
  case lastkey =>
    have hc : s.cf = false := by simpa [worksUnderFault] using hc
    have hk : s.kv = false := by simpa [uninitError] using hu
    simp [exec, execLastkey, hc, hd rfl, hk]
  case cntrd =>
    have hc : s.cf = false := by simpa [worksUnderFault] using hc
    have ha : s.av = false := by simpa [uninitError] using hu
    simp [exec, execCntrd, hc, ha]
  all_goals cases hu

/-- A command that `S_IDLE` refuses is refused with the same cause at the transaction level. -/
theorem exec_of_refusalOf {i : Instr} {s : State} {e : Cause} (h : refusalOf i s = some e) :
    exec i s = .next (s.raise e) := by
  unfold refusalOf at h
  split at h
  · rename_i hf
    cases h
    obtain ⟨hc, hw⟩ : s.cf = true ∧ worksUnderFault i = false := by simpa using hf
    exact exec_of_fault hc hw
  · rename_i hf
    have hc : s.cf = true → worksUnderFault i = true := by simpa using hf
    split at h
    · rename_i hl
      cases h
      obtain ⟨rfl, hd⟩ : i = .lastkey ∧ s.cfg.diagEn = false := by simpa using hl
      exact exec_lastkey_of_no_diag (by simpa [worksUnderFault] using hc) hd
    · rename_i hl
      have hd : i = .lastkey → s.cfg.diagEn = true := by simpa using hl
      split at h
      · cases h
        exact exec_of_argError hc ‹_›
      · split at h
        · cases h
          exact exec_of_uninitError hc hd ‹_›
        · cases h

theorem refusalOf_keygen (s : State) : refusalOf .keygen s = if s.cf then some .cfg else none := by
  simp [refusalOf, worksUnderFault, argError, uninitError]

theorem refusalOf_atk (s : State) :
    refusalOf .atk s = if s.cf then some .cfg else if !s.kv then some .uninit else none := by
  simp [refusalOf, worksUnderFault, argError, uninitError]

section
variable {s : State} {w : CmdWord}

theorem State.dispatchWord_illegal {e : Illegal} (hd : decode w = .error e) : s.dispatchWord w = s.raise .ill := by
  simp [State.dispatchWord, hd]

/-- `S_IDLE` begins `KEYGEN` unless there is a configuration fault. -/
theorem State.dispatchWord_keygen (hd : decode w = .ok .keygen) :
    s.dispatchWord w = if s.cf then s.raise .cfg else { s.keygenStart with fsm := .kg } := by
  simp only [State.dispatchWord, hd, refusalOf_keygen]
  cases s.cf <;> rfl

/-- `S_IDLE` begins `ATK` unless there is a configuration fault or there are no keys. -/
theorem State.dispatchWord_atk (hd : decode w = .ok .atk) :
    s.dispatchWord w =
      if s.cf then s.raise .cfg else if !s.kv then s.raise .uninit else { s with fsm := .clr } := by
  simp only [State.dispatchWord, hd, refusalOf_atk]
  cases s.cf <;> cases s.kv <;> rfl

/-- Of any other command `S_IDLE` does in one transition what the transaction level does (R169). -/
theorem State.exec_eq_dispatchWord {i : Instr} (hd : decode w = .ok i) (hk : i ≠ .keygen) (ha : i ≠ .atk) :
    exec i s = .next (s.dispatchWord w) := by
  simp only [State.dispatchWord, hd]
  split
  · exact exec_of_refusalOf ‹_›
  · cases i
    case keygen => exact absurd rfl hk
    case atk => exact absurd rfl ha
    all_goals rfl

end

end Sys2Proof.Machine
end

section
/-!
The FSM level does what the transaction level does (00_scope.md R11; 43_attack.md R178): first the two loops that draw,
then whole steps.
-/

namespace Sys2Proof.Machine

/-! ### Reaching a state at the FSM level, up to the dead working registers (R37, R178) -/

/-- A number of transitions leads from `s` to what the transaction level sees of `t`. -/
def State.Reaches (s t : State) : Prop := ∃ n, (State.ticks n s).view = t.view

theorem State.Reaches.of_view_eq {s t : State} (h : s.view = t.view) : s.Reaches t := ⟨0, h⟩

theorem State.Reaches.of_ticks (n : Nat) {s t : State} (h : (State.ticks n s).Reaches t) : s.Reaches t := by
  obtain ⟨m, hm⟩ := h
  exact ⟨n + m, by rw [State.ticks_add, hm]⟩

theorem State.Reaches.of_tick {s t : State} (h : s.tick.Reaches t) : s.Reaches t := .of_ticks 1 h

theorem State.reaches_tick (s : State) : s.Reaches s.tick := .of_tick (.of_view_eq rfl)

/-- The state inside a command: in an FSM state, with given working registers. -/
abbrev State.inside (s : State) (f : FsmState) (w : Work) : State := { s with fsm := f, work := w }

theorem State.inside_self {s : State} {f : FsmState} (h : s.fsm = f) : s.inside f s.work = s := by subst h; rfl

/-! ### `KEYGEN` (R123, R166) -/

/-- A value presented in `S_KG` is loaded; the fifth ends the command (R166). -/
theorem State.tickKg_of_peek {s : State} {v : Word} (h : s.env.rng.peek 0 = some v) :
    s.tickKg =
      if s.work.kidx = 4 then
        { ((s.drawn 1).putKey v).keygenFinish with work := s.work }
      else (s.drawn 1).putKey v := by
  unfold State.tickKg
  rw [State.draw_of_peek h]
  rfl

/-- From `S_KG` the FSM holds where the loop of `KEYGEN` holds, or loads a key (R166). -/
theorem State.reaches_keygenLoop_succ {n : Nat} {s : State} (hr : s.env.rst = false)
    (h : ∀ v, s.env.rng.peek 0 = some v →
      (s.inside .kg s.work).tickKg.Reaches (((s.drawn 1).putKey v).keygenLoop n)) :
    (s.inside .kg s.work).Reaches (s.keygenLoop (n + 1)) := by
  rcases s.draw_cases with ⟨hp, -, -⟩ | ⟨v, hp, hd⟩
  · rw [State.keygenLoop_silent hp]
    exact .of_view_eq rfl
  · refine .of_tick ?_
    rw [State.tick_kg (by exact hr) rfl, State.keygenLoop, hd]
    exact h v hp

/-- From `S_KG` the FSM does what the loop of `KEYGEN` does with the keys still to load. -/
theorem State.reaches_keygenLoop (n : Nat) {s : State} (hr : s.env.rst = false) (hk : s.work.kidx.toNat + n = 4) :
    (s.inside .kg s.work).Reaches (s.keygenLoop (n + 1)) := by
  induction n generalizing s with
  | zero =>
    refine State.reaches_keygenLoop_succ hr fun v hp => .of_view_eq ?_
    have hlast : s.work.kidx = 4 := BitVec.eq_of_toNat_eq hk
    rw [State.tickKg_of_peek (by exact hp), if_pos (by exact hlast)]
    rfl
  | succ n ih =>
    refine State.reaches_keygenLoop_succ hr fun v hp => ?_
    have hmore : s.work.kidx ≠ 4 := by bv_omega
    rw [State.tickKg_of_peek (by exact hp), if_neg (by exact hmore)]
    have hk' : (s.work.kidx + 1).toNat + n = 4 := by bv_omega
    exact ih (s := (s.drawn 1).putKey v) hr hk'

/-- A held `KEYGEN` goes on at the FSM level as at the transaction level. -/
theorem State.reaches_keygenResume {s : State} (hr : s.env.rst = false) (hf : s.fsm = .kg)
    (hk : s.work.kidx.toNat ≤ 4) : s.Reaches s.keygenResume := by
  have h := State.reaches_keygenLoop (4 - s.work.kidx.toNat) hr (by omega)
  rwa [State.inside_self hf, show 4 - s.work.kidx.toNat + 1 = 5 - s.work.kidx.toNat by omega] at h

/-! ### `ATK` (R159, R162, R167 to R176) -/

/-- From the FSM state `f`, whatever the dead working registers hold, the FSM does what the loop of `ATK` does with
the last `n` iterations. -/
def FinishesAtk (f : FsmState) (n : Nat) : Prop :=
  ∀ (s : State) (w : Work), s.env.rst = false → w.it = s.work.it → s.work.it.toNat + n = s.iter.toNat →
    (s.inside f w).Reaches (s.atkLoop n)

/-- With no iteration to do, `S_CHK` goes to the scan of `S_AMAX`, which ends the command (R168, R176). -/
theorem finishesAtk_chk_zero : FinishesAtk .chk 0 := by
  intro s w hr hw hn
  have hit : w.it = s.iter := by rw [hw]; exact BitVec.eq_of_toNat_eq hn
  refine .of_tick (.of_ticks 256 (.of_view_eq ?_))
  rw [State.tick_chk (by exact hr) rfl, State.tickChk, if_pos (by exact hit),
    State.ticks_amax_all (by exact hr) rfl rfl rfl rfl]
  rfl

/-- With an iteration to do, `S_CHK` goes to `S_DRAW` (R168). -/
theorem FinishesAtk.chk_succ {n : Nat} (h : FinishesAtk .draw (n + 1)) : FinishesAtk .chk (n + 1) := by
  intro s w hr hw hn
  have hit : w.it ≠ s.iter := by rw [hw]; bv_omega
  refine .of_tick ?_
  rw [State.tick_chk (by exact hr) rfl, State.tickChk, if_neg (by exact hit)]
  exact h s w hr hw hn

/-- The working registers once both plaintexts of the pair drawn as `r` are encrypted (R170 to R172). -/
def Work.queried (w : Work) (x : AttackIn) (r : Word) : Work :=
  { w with p1 := r, p2 := x.p2 r, c1 := x.enc r, c2 := x.enc (x.p2 r) }

/-- A value presented in `S_DRAW` is encrypted with its partner, and the pair comes to the filter (R170 to R172). -/
theorem State.ticks_queries {s : State} {w : Work} {r : Word} (hr : s.env.rst = false)
    (hp : s.env.rng.peek 0 = some r) :
    State.ticks 3 (s.inside .draw w) = (s.drawn 1).inside .filt (w.queried s.attackIn r) := by
  have h1 : (s.inside .draw w).tick = (s.drawn 1).inside .q1 { w with p1 := r, p2 := s.attackIn.p2 r } := by
    rw [State.tick_draw (by exact hr) rfl, State.tickDraw, State.draw_of_peek (by exact hp)]
    rfl
  rw [State.ticks, h1, State.ticks, State.tick_q1 (by exact hr) rfl, State.ticks, State.tick_q2 (by exact hr) rfl]
  rfl

/-- From the filter, the FSM counts what the iteration counts, and is done with the pair in `S_NEXT` (R173, R174). -/
theorem State.ticks_filt_next {s : State} {w : Work} {r : Word} (hr : s.env.rst = false)
    (h1 : w.c1 = s.attackIn.enc r) (h2 : w.c2 = s.attackIn.enc (s.attackIn.p2 r)) :
    ∃ n w', w'.it = w.it ∧
      State.ticks n (s.inside .filt w) = { s with fsm := .next, cnt := s.attackIn.iteration s.cnt r, work := w' } := by
  by_cases hp : passesFilter s.tmask w.c1 w.c2 = true
  · refine ⟨257, { w with cand := 255 }, rfl, ?_⟩
    show State.ticks 256 (s.inside .filt w).tick = _
    rw [State.tick_filt (by exact hr) rfl, State.tickFilt, if_neg (by simpa [passesFilter] using hp),
      State.ticks_cand_all (by exact hr) rfl rfl, State.scanned_all _ r (by exact h1) (by exact h2) (by exact hp)]
    rfl
  · refine ⟨1, w, rfl, ?_⟩
    have hc : s.attackIn.iteration s.cnt r = s.cnt := by
      rw [AttackIn.iteration, ← h1, ← h2]
      exact if_neg hp
    show (s.inside .filt w).tick = _
    rw [State.tick_filt (by exact hr) rfl, State.tickFilt, if_pos (by simpa [passesFilter] using hp), hc]

/-- One iteration of `ATK` at the FSM level, from `S_DRAW` back to `S_CHK` (R159). -/
theorem State.ticks_iteration {s : State} {w : Work} {r : Word} (hr : s.env.rst = false)
    (hp : s.env.rng.peek 0 = some r) :
    ∃ n w', w'.it = w.it + 1 ∧ State.ticks n (s.inside .draw w) = ((s.drawn 1).atkIterate r).inside .chk w' := by
  obtain ⟨n, w', hw, hn⟩ := State.ticks_filt_next (s := s.drawn 1) (w := w.queried s.attackIn r) (r := r)
    (by exact hr) rfl rfl
  refine ⟨3 + (n + 1), { w' with it := w'.it + 1 }, by rw [hw]; rfl, ?_⟩
  rw [State.ticks_add, State.ticks_queries hr hp, State.ticks_succ, hn, State.tick_next (by exact hr) rfl]
  rfl

/-- From `S_DRAW` the FSM holds where the loop holds, or does an iteration and goes on from `S_CHK` (R170). -/
theorem FinishesAtk.draw_succ {n : Nat} (h : FinishesAtk .chk n) : FinishesAtk .draw (n + 1) := by
  intro s w hr hw hn
  rcases s.draw_cases with ⟨hp, -, -⟩ | ⟨r, hp, hd⟩
  · rw [State.atkLoop_silent hp]
    refine .of_view_eq ?_
    simp [State.view, State.liveWork, hw]
  · obtain ⟨m, w', hw', hm⟩ := State.ticks_iteration (w := w) hr hp
    refine .of_ticks m ?_
    rw [hm, State.atkLoop, hd]
    refine h ((s.drawn 1).atkIterate r) w' hr (by rw [hw', hw]; rfl) ?_
    show (s.work.it + 1).toNat + n = s.iter.toNat
    bv_omega

theorem finishesAtk_chk (n : Nat) : FinishesAtk .chk n := by
  induction n with
  | zero => exact finishesAtk_chk_zero
  | succ n ih => exact ih.draw_succ.chk_succ

theorem finishesAtk_draw (n : Nat) : FinishesAtk .draw (n + 1) := (finishesAtk_chk n).draw_succ

/-- A held `ATK` goes on at the FSM level as at the transaction level. -/
theorem State.reaches_atkResume {s : State} (hr : s.env.rst = false) (hf : s.fsm = .draw)
    (hit : s.work.it.toNat < s.iter.toNat) : s.Reaches s.atkResume := by
  obtain ⟨n, hn⟩ : ∃ n, s.iter.toNat - s.work.it.toNat = n + 1 := ⟨s.iter.toNat - s.work.it.toNat - 1, by omega⟩
  have h := finishesAtk_draw n s s.work hr rfl (by omega)
  rwa [State.inside_self hf, ← hn] at h

/-! ### One step -/

/-- A block in `S_IDLE` reaches what the transaction level makes of the word presented (R169, R178). -/
theorem State.reaches_runWord {s t : State} {w : CmdWord} (hr : s.env.rst = false)
    (h : s.runWord w = .next t) : (s.dispatchWord w).Reaches t := by
  rcases hd : decode w with e | i
  · rw [State.dispatchWord_illegal hd]
    simp only [State.runWord, hd] at h
    cases h
    exact .of_view_eq rfl
  · replace h : exec i s = .next t := by simpa only [State.runWord, hd] using h
    by_cases hk : i = .keygen
    · subst hk
      simp only [exec, execKeygen] at h
      rw [State.dispatchWord_keygen hd]
      split at h <;> cases h
      · rw [if_pos ‹_›]
        exact .of_view_eq rfl
      · rw [if_neg ‹_›]
        exact State.reaches_keygenLoop 4 (s := s.keygenStart) hr rfl
    by_cases ha : i = .atk
    · subst ha
      simp only [exec, execAtk] at h
      rw [State.dispatchWord_atk hd]
      split at h
      · cases h
        rw [if_pos ‹_›]
        exact .of_view_eq rfl
      · rw [if_neg ‹_›]
        split at h <;> cases h
        · rw [if_pos ‹_›]
          exact .of_view_eq rfl
        · rw [if_neg ‹_›]
          refine .of_tick ?_
          rw [State.tick_clr (by exact hr) rfl]
          exact finishesAtk_chk _ s.atkClear s.atkClear.work hr rfl (by simp)
    · rw [State.exec_eq_dispatchWord hd hk ha] at h
      cases h
      exact .of_view_eq rfl

section
variable {s : State}

theorem State.transact_of_none (h : s.env.cmdq = []) : s.transact = .next s := by
  unfold State.transact
  rw [h]

theorem State.transact_of_word {w : CmdWord} {rest : List CmdWord} (h : s.env.cmdq = w :: rest) :
    s.transact = s.accept.runWord w := by
  unfold State.transact
  rw [h]

theorem State.tickIdle_of_none (h : s.env.cmdq = []) : s.tickIdle = s := by
  unfold State.tickIdle
  rw [h]

theorem State.tickIdle_of_word {w : CmdWord} {rest : List CmdWord} (h : s.env.cmdq = w :: rest) :
    s.tickIdle = s.accept.dispatchWord w := by
  unfold State.tickIdle
  rw [h]

end

theorem State.reaches_transact {s t : State} (hr : s.env.rst = false) (hf : s.fsm = .idle)
    (h : s.transact = .next t) : s.Reaches t := by
  refine .of_tick ?_
  rw [State.tick_idle hr hf]
  cases hq : s.env.cmdq with
  | nil =>
    rw [State.transact_of_none hq] at h
    cases h
    exact .of_view_eq (by rw [State.tickIdle_of_none hq])
  | cons w rest =>
    rw [State.transact_of_word hq] at h
    rw [State.tickIdle_of_word hq]
    exact State.reaches_runWord hr h

/-- The FSM reaches what a step of the transaction level makes of a state that meets the invariant (R178). -/
theorem State.Inv.reaches_step {s t : State} (hi : s.Inv) (h : step s = .next t) : s.Reaches t := by
  rcases hr : s.env.rst with _ | _
  case true =>
    have ht : step s = .next s.tick := by simp [step, State.tick, hr]
    cases ht.symm.trans h
    exact s.reaches_tick
  have hw := hi.fsm
  unfold State.fsmInv at hw
  cases hf : s.fsm
  case idle => exact State.reaches_transact hr hf (by simpa [step, hr, hf] using h)
  case kg =>
    have ht : step s = .next s.keygenResume := by simp [step, hr, hf]
    cases ht.symm.trans h
    exact State.reaches_keygenResume hr hf (by simpa [hf] using hw)
  case draw =>
    have ht : step s = .next s.atkResume := by simp [step, hr, hf]
    cases ht.symm.trans h
    rw [hf] at hw
    obtain ⟨-, hit⟩ := hw
    exact State.reaches_atkResume hr hf hit
  all_goals
    rw [step_eq_tick (by simp [hf]) (by simp [hf]) (by simp [hf])] at h
    cases h
    exact s.reaches_tick

/-- Settles O53: the two loops by induction on the draws still to come, every other step by at most one transition. -/
theorem fsmRefinesTheTransactionLevel : Obligations.FsmRefinesTheTransactionLevel :=
  fun _ _ hi h => hi.reaches_step h

end Sys2Proof.Machine
end

section
/-!
The invariant of the machine: every FSM transition keeps it, hence every step, which only the dead working registers
tell from a number of transitions; so every reachable state meets it (00_scope.md R10).
-/

namespace Sys2Proof.Machine

/-- A candidate but the last has a next one. -/
theorem toNat_ofNat_succ {n : Fin 256} (h : n.val ≠ 255) : (BitVec.ofNat 8 (n.val + 1)).toNat = n.val + 1 := by
  rw [BitVec.toNat_ofNat, Nat.mod_eq_of_lt (by omega)]

/-- The counters after `S_CAND` has seen its candidate (R174). -/
def State.candCounted (s : State) : Counters :=
  if s.attackIn.isMatch s.work.c1 s.work.c2 s.work.cand then
    s.cnt.set s.work.cand.toNat (s.cnt[s.work.cand.toNat]'s.work.cand.isLt + 1) s.work.cand.isLt
  else s.cnt

theorem State.candCounted_get (s : State) (i : Fin 256) :
    s.candCounted[i] =
      if i.val = s.work.cand.toNat ∧ s.attackIn.isMatch s.work.c1 s.work.c2 s.work.cand then s.cnt[i] + 1
      else s.cnt[i] := by
  unfold State.candCounted
  by_cases hm : s.attackIn.isMatch s.work.c1 s.work.c2 s.work.cand
  · by_cases hi : i.val = s.work.cand.toNat
    · simp [hm, hi]
    · simp [hm, hi, Ne.symm hi]
  · simp [hm]

/-! ### Reset, the outside and the view -/

theorem State.resetWith_inv (c : Config) (e : Env) : (State.resetWith c e).Inv where
  tmask := (by decide : legalTmask 0b0101 = true)
  fault := ⟨rfl, fun _ => ⟨rfl, rfl, .inl rfl⟩⟩
  result := nofun
  fsm := trivial

/-- The invariant says nothing of the dead working registers. -/
theorem State.view_inv (s : State) : s.view.Inv ↔ s.Inv := by
  have hfsm : s.view.fsmInv ↔ s.fsmInv := by
    unfold State.view State.fsmInv State.liveWork
    cases s.fsm <;> rfl
  exact ⟨fun h => ⟨h.tmask, h.fault, h.result, hfsm.1 h.fsm⟩, fun h => ⟨h.tmask, h.fault, h.result, hfsm.2 h.fsm⟩⟩

section
variable {s : State} (h : s.Inv)
include h

theorem State.Inv.act (a : EnvAction) : (s.act a).Inv := ⟨h.tmask, h.fault, h.result, h.fsm⟩

theorem State.Inv.accept : s.accept.Inv := ⟨h.tmask, h.fault, h.result, h.fsm⟩

/-! ### Idle and answering states -/

/-- A block that goes idle or answers keeps the invariant. -/
theorem State.Inv.quiet {f : FsmState} (hf : f = .idle ∨ f = .rsp) : { s with fsm := f }.Inv where
  tmask := h.tmask
  fault := by
    obtain ⟨hcf, hnone⟩ := h.fault
    refine ⟨hcf, fun hc => ?_⟩
    obtain ⟨hkv, hav, -⟩ := hnone hc
    exact ⟨hkv, hav, hf⟩
  result := h.result
  fsm := by rcases hf with rfl | rfl <;> trivial

theorem State.Inv.respond (d : Word) : (s.respond d).Inv :=
  have ⟨hm, hc, hr, hw⟩ := h.quiet (.inr rfl)
  ⟨hm, hc, hr, hw⟩

theorem State.Inv.handOver : s.handOver.Inv :=
  have ⟨hm, hc, hr, hw⟩ := h.quiet (.inl rfl)
  ⟨hm, hc, hr, hw⟩

theorem State.Inv.raise (e : Cause) : (s.raise e).Inv := by
  obtain ⟨hm, hc, hr, hw⟩ := h.quiet (.inr rfl)
  cases e <;> exact ⟨hm, hc, hr, hw⟩

theorem State.Inv.respond_writeCr {t : State} {r : CrName} {v : Word} (hw : s.writeCr r v = some t) :
    (t.respond 0).Inv := by
  obtain ⟨hm, hc, hr, hf⟩ := h.respond 0
  rcases State.writeCr_some hw with ⟨-, rfl⟩ | ⟨-, rfl⟩ | ⟨-, hl, rfl⟩ | ⟨-, rfl⟩
  · exact ⟨hm, hc, hr, hf⟩
  · exact ⟨hm, hc, hr, hf⟩
  · exact ⟨legalTmask_of_data hl, hc, hr, hf⟩
  · exact ⟨hm, hc, hr, hf⟩

/-- A command that does not draw keeps the invariant. -/
theorem State.Inv.exec {i : Instr} {t : State} (hk : i ≠ .keygen) (ha : i ≠ .atk) (he : exec i s = .next t) :
    t.Inv := by
  cases exec_shape he with
  | raise _ e => exact h.raise e
  | respond _ d => exact h.respond d
  | srst => exact (State.resetWith_inv _ _).respond 0
  | wrcr _ hw => exact h.respond_writeCr hw
  | keygen => exact absurd rfl hk
  | atk => exact absurd rfl ha

theorem State.Inv.dispatchWord (w : CmdWord) : (s.dispatchWord w).Inv := by
  rcases s.dispatchWord_cases w with ⟨e, he⟩ | ⟨hd, -⟩ | ⟨hd, -⟩ | ⟨i, -, hk, ha, he⟩
  · rw [he]
    exact h.raise e
  · rw [State.dispatchWord_keygen hd]
    split
    · exact h.raise _
    · exact ⟨h.tmask, ⟨h.fault.1, fun hc => absurd hc ‹_›⟩, h.result, Nat.zero_le 4⟩
  · rw [State.dispatchWord_atk hd]
    split
    · exact h.raise _
    · split
      · exact h.raise _
      · have hk : s.kv = true := by simpa using ‹¬(!s.kv) = true›
        exact ⟨h.tmask, ⟨h.fault.1, fun hc => absurd hc ‹_›⟩, h.result, hk⟩
  · exact h.exec hk ha he

theorem State.Inv.tickIdle : s.tickIdle.Inv := by
  unfold State.tickIdle
  split
  · exact h
  · exact h.accept.dispatchWord _

theorem State.Inv.tickRsp : s.tickRsp.Inv := by
  rcases s.tickRsp_cases with ⟨-, ht⟩ | ⟨-, ht⟩ <;> rw [ht]
  · exact h
  · exact h.handOver

/-! ### States inside a command -/

/-- No command runs under a configuration fault (R222). -/
theorem State.Inv.cf_of_running (hrun : s.fsm ≠ .idle ∧ s.fsm ≠ .rsp) : s.cf = false := by
  obtain ⟨-, hnone⟩ := h.fault
  by_contra hc
  obtain ⟨-, -, hf⟩ := hnone (by simpa using hc)
  exact hf.elim hrun.1 hrun.2

/-- Inside `KEYGEN` and `ATK` the invariant of the next state rests on its results and its FSM state. -/
theorem State.Inv.of_running {t : State} (hrun : s.fsm ≠ .idle ∧ s.fsm ≠ .rsp) (hm : t.tmask = s.tmask)
    (hcfg : t.cfg = s.cfg) (hcf : t.cf = s.cf) (hr : t.resultInv) (hw : t.fsmInv) : t.Inv where
  tmask := by rw [hm]; exact h.tmask
  fault := by
    have hc := h.cf_of_running hrun
    obtain ⟨hfault, -⟩ := h.fault
    exact ⟨by rw [hcf, hcfg, hfault], fun hc' => by simp [hcf, hc] at hc'⟩
  result := hr
  fsm := hw

theorem State.Inv.tickKg (hf : s.fsm = .kg) : s.tickKg.Inv := by
  have hw := h.fsm
  simp only [State.fsmInv, hf] at hw
  rcases s.draw_cases with ⟨-, -, hd⟩ | ⟨v, hp, -⟩
  · rw [State.tickKg, hd]
    exact h
  · rw [State.tickKg_of_peek hp]
    split
    · exact h.of_running (by simp [hf]) rfl rfl rfl nofun trivial
    · rename_i hk
      refine h.of_running (by simp [hf]) rfl rfl rfl h.result ?_
      have hk' : (s.work.kidx + 1).toNat ≤ 4 := by bv_omega
      have hkg : ((s.drawn 1).putKey v).fsm = .kg := hf
      unfold State.fsmInv
      rw [hkg]
      exact hk'

/-! ### The transitions of `ATK` -/

/-- Inside `ATK` there is no valid result, so the invariant of the next state rests on its FSM state alone. -/
theorem State.Inv.of_attack {f : FsmState} {c : Counters} {a : Bool} {w : Work} {e : Env}
    (hrun : s.fsm ≠ .idle ∧ s.fsm ≠ .rsp) (hav : a = false)
    (hw : { s with fsm := f, cnt := c, av := a, work := w, env := e }.fsmInv) :
    { s with fsm := f, cnt := c, av := a, work := w, env := e }.Inv :=
  h.of_running hrun rfl rfl rfl (fun ha => by simp [hav] at ha) hw

theorem State.Inv.tickClr (hf : s.fsm = .clr) : s.tickClr.Inv := by
  have hk : s.kv = true := by simpa only [State.fsmInv, hf] using h.fsm
  refine h.of_attack (by simp [hf]) rfl ⟨⟨hk, rfl, fun i => ?_⟩, Nat.zero_le _⟩
  simp [zeroCounters]

theorem State.Inv.tickChk (hf : s.fsm = .chk) : s.tickChk.Inv := by
  obtain ⟨⟨hk, hav, hc⟩, hle⟩ : s.attackInv s.work.it.toNat ∧ s.work.it.toNat ≤ s.iter.toNat := by
    simpa only [State.fsmInv, hf] using h.fsm
  unfold State.tickChk
  split
  · rename_i hit
    rw [hit] at hc
    exact h.of_attack (by simp [hf]) hav ⟨⟨hk, hav, hc⟩, rfl⟩
  · have hlt : s.work.it.toNat < s.iter.toNat := by bv_omega
    exact h.of_attack (by simp [hf]) hav ⟨⟨hk, hav, hc⟩, hlt⟩

/-- What the invariant says between a draw and the filter (R170 to R173). -/
theorem State.Inv.attack_of_pair (hf : s.fsm = .draw ∨ s.fsm = .q1 ∨ s.fsm = .q2 ∨ s.fsm = .filt) :
    s.attackInv s.work.it.toNat ∧ s.work.it.toNat < s.iter.toNat := by
  have hw := h.fsm
  rcases hf with hf | hf | hf | hf <;> simpa only [State.fsmInv, hf] using hw

theorem State.Inv.tickDraw (hf : s.fsm = .draw) : s.tickDraw.Inv := by
  rcases s.draw_cases with ⟨-, -, hd⟩ | ⟨v, -, hd⟩ <;> rw [State.tickDraw, hd]
  · exact h
  · obtain ⟨⟨hk, hav, hc⟩, hlt⟩ := h.attack_of_pair (by simp [hf])
    exact h.of_attack (by simp [hf]) hav ⟨⟨hk, hav, hc⟩, hlt⟩

theorem State.Inv.tickQ1 (hf : s.fsm = .q1) : s.tickQ1.Inv := by
  obtain ⟨⟨hk, hav, hc⟩, hlt⟩ := h.attack_of_pair (by simp [hf])
  exact h.of_attack (by simp [hf]) hav ⟨⟨hk, hav, hc⟩, hlt⟩

theorem State.Inv.tickQ2 (hf : s.fsm = .q2) : s.tickQ2.Inv := by
  obtain ⟨⟨hk, hav, hc⟩, hlt⟩ := h.attack_of_pair (by simp [hf])
  exact h.of_attack (by simp [hf]) hav ⟨⟨hk, hav, hc⟩, hlt⟩

theorem State.Inv.tickFilt (hf : s.fsm = .filt) : s.tickFilt.Inv := by
  obtain ⟨⟨hk, hav, hc⟩, hlt⟩ := h.attack_of_pair (by simp [hf])
  have ha : s.attackInv (s.work.it.toNat + 1) := ⟨hk, hav, fun i => (hc i).trans (Nat.le_succ _)⟩
  unfold State.tickFilt
  split
  · exact h.of_attack (by simp [hf]) hav ⟨ha, hlt⟩
  · exact h.of_attack (by simp [hf]) hav ⟨ha, hlt, fun i _ => hc i⟩

theorem State.Inv.tickNext (hf : s.fsm = .next) : s.tickNext.Inv := by
  obtain ⟨⟨hk, hav, hc⟩, hlt⟩ : s.attackInv (s.work.it.toNat + 1) ∧ s.work.it.toNat < s.iter.toNat := by
    simpa only [State.fsmInv, hf] using h.fsm
  have hit : (s.work.it + 1).toNat = s.work.it.toNat + 1 := by bv_omega
  refine h.of_attack (by simp [hf]) hav ?_
  show s.attackInv (s.work.it + 1).toNat ∧ (s.work.it + 1).toNat ≤ s.iter.toNat
  rw [hit]
  exact ⟨⟨hk, hav, hc⟩, hlt⟩

theorem State.Inv.tickCand (hf : s.fsm = .cand) : s.tickCand.Inv := by
  obtain ⟨⟨hk, hav, hc⟩, hlt, hrest⟩ : s.attackInv (s.work.it.toNat + 1) ∧ s.work.it.toNat < s.iter.toNat ∧
      ∀ i : Fin 256, s.work.cand.toNat ≤ i.val → (s.cnt[i]).toNat ≤ s.work.it.toNat := by
    simpa only [State.fsmInv, hf] using h.fsm
  have hall (i : Fin 256) : (s.candCounted[i]).toNat ≤ s.work.it.toNat + 1 := by
    have hi := hc i
    rw [State.candCounted_get]
    split
    · have := hrest i (by omega)
      bv_omega
    · exact hi
  have habove (i : Fin 256) (hi : s.work.cand.toNat + 1 ≤ i.val) : (s.candCounted[i]).toNat ≤ s.work.it.toNat := by
    rw [State.candCounted_get, if_neg (by omega)]
    exact hrest i (by omega)
  rw [State.tickCand_eq (n := s.work.cand.toFin) (c := s.candCounted) rfl rfl]
  split
  · exact h.of_attack (by simp [hf]) hav ⟨⟨hk, hav, hall⟩, hlt⟩
  · rename_i hlast
    refine h.of_attack (by simp [hf]) hav ?_
    simp only [State.fsmInv, hf, toNat_ofNat_succ hlast]
    exact ⟨⟨hk, hav, hall⟩, hlt, habove⟩

theorem State.Inv.tickAmax (hf : s.fsm = .amax) : s.tickAmax.Inv := by
  obtain ⟨⟨hk, hav, hc⟩, hb⟩ : s.attackInv s.iter.toNat ∧
      (s.work.best, s.work.bestCnt) = scanBest s.cnt s.work.cand.toNat := by
    simpa only [State.fsmInv, hf, scanBest] using h.fsm
  have hs : s.amaxAt s.work.cand.toFin.val = s := by
    simp [State.amaxAt, ← hb]
  rw [← hs, State.tickAmax_amaxAt]
  split
  · rename_i hlast
    refine h.of_running (by simp [hf]) rfl rfl rfl (fun _ => ⟨hk, ?_⟩) trivial
    rw [hlast]
    exact (argMax_eq_take s.cnt).symm
  · rename_i hlast
    refine h.of_attack (by simp [hf]) hav ?_
    simp only [State.fsmInv, hf, toNat_ofNat_succ hlast]
    exact ⟨⟨hk, hav, hc⟩, rfl⟩

/-- Every FSM transition keeps the invariant. -/
theorem State.Inv.tick : s.tick.Inv := by
  unfold State.tick
  split
  · exact State.resetWith_inv _ _
  · cases hf : s.fsm
    case idle => exact h.tickIdle
    case kg => exact h.tickKg hf
    case clr => exact h.tickClr hf
    case chk => exact h.tickChk hf
    case draw => exact h.tickDraw hf
    case q1 => exact h.tickQ1 hf
    case q2 => exact h.tickQ2 hf
    case filt => exact h.tickFilt hf
    case cand => exact h.tickCand hf
    case next => exact h.tickNext hf
    case amax => exact h.tickAmax hf
    case rsp => exact h.tickRsp

theorem State.Inv.ticks (n : Nat) : (State.ticks n s).Inv := by
  induction n generalizing s with
  | zero => exact h
  | succ n ih => exact ih h.tick

/-- Every step keeps the invariant: its next state differs from one that transitions reach in dead working registers
only. -/
theorem State.Inv.step {t : State} (hs : Machine.step s = .next t) : t.Inv := by
  obtain ⟨n, hn⟩ := h.reaches_step hs
  rw [← State.view_inv, ← hn, State.view_inv]
  exact h.ticks n

end

/-- Settles O52, by induction on how the state is reached. -/
theorem reachableStatesMeetTheInvariant : Obligations.ReachableStatesMeetTheInvariant := by
  intro s hs
  induction hs with
  | reset c e => exact State.resetWith_inv c e
  | step _ h ih => exact ih.step h
  | tick _ ih => exact ih.tick
  | outside a _ ih => exact ih.act a

end Sys2Proof.Machine
end

section
/-!
The statements on the state and its registers: the invariant at reset and over every step (00_scope.md R10), the
configuration fault (10_state.md R36), the values reset leaves (R42), and `RDCR` and `WRCR` register by register
(44_control.md R194, R195).
-/

namespace Sys2Proof.Machine

/-! ### The invariant -/

/-- Settles O50: a step is a number of transitions, up to the dead working registers, and each keeps the invariant. -/
theorem stepKeepsTheInvariant : Obligations.StepKeepsTheInvariant := fun _ _ hi h => hi.step h

/-- Settles O51, one FSM state at a time. -/
theorem tickKeepsTheInvariant : Obligations.TickKeepsTheInvariant := fun _ hi => hi.tick

/-- Settles O49: at reset nothing is valid and nothing runs. -/
theorem invariantHoldsAtReset : Obligations.InvariantHoldsAtReset := State.resetWith_inv

/-! ### The configuration fault (R36, R222) -/

theorem sboxBijective_iff (c : Config) : c.sboxBijective = true ↔ Function.Bijective c.sub := by
  simp only [Config.sboxBijective, List.all_eq_true, beq_iff_eq, sbox_toList, mem_allNibbles, true_imp_iff,
    count_map_eq_one nodup_allNibbles mem_allNibbles, Function.bijective_iff_existsUnique]

theorem permBijective_iff (c : Config) : c.permBijective = true ↔ Function.Bijective c.dest := by
  simp only [Config.permBijective, List.all_eq_true, beq_iff_eq, perm_toList, mem_allBits, true_imp_iff,
    count_map_eq_one nodup_allBits mem_allBits, Function.bijective_iff_existsUnique]

/-- Settles O11: a value that a table hits exactly once is one that has exactly one preimage. -/
theorem faultMeansATableIsNoBijection : Obligations.FaultMeansATableIsNoBijection := by
  intro c
  rw [← sboxBijective_iff, ← permBijective_iff, ← Bool.and_eq_true_iff, Bool.not_eq_true, Config.fault,
    Bool.not_eq_true', Config.wellFormed]

/-! ### Reset -/

/-- Settles O56: the values are those of `State.resetWith`, the pins those of an idle block. -/
theorem resetLeavesTheSpecifiedValues : Obligations.ResetLeavesTheSpecifiedValues := by
  intro c e hr
  refine ⟨rfl, rfl, fun x => by cases x <;> rfl, rfl, rfl, rfl, rfl, rfl, rfl, ?_, ?_⟩
  · cases hf : c.fault <;> simp [State.statusWord, State.resetWith, hf]
  · simp [State.outputs, State.resetWith, FsmState.takesRng, hr]

/-- Settles O36: `SRST` answers from the state that hard reset leaves. -/
theorem srstLeavesTheHardResetState : Obligations.SrstLeavesTheHardResetState := fun s =>
  ⟨s.toReset.respond 0, rfl, rfl, rfl, fun e => by cases e <;> rfl, rfl, rfl, rfl, rfl, rfl, rfl, rfl, rfl, rfl, rfl⟩

/-! ### An accepted word -/

theorem State.runWord_of_decode {w : CmdWord} {i : Instr} (h : decode w = .ok i) (s : State) :
    s.runWord w = exec i s := by
  simp [State.runWord, h]

theorem step_of_idle {s : State} (hr : s.env.rst = false) (hf : s.fsm = .idle) : step s = s.transact := by
  simp [step, hr, hf]

/-- Settles O5: an idle block accepts the word and runs what it decodes to. -/
theorem stepRunsDecodedCommand : Obligations.StepRunsDecodedCommand := by
  intro s w rest i hr hf hq hd
  rw [step_of_idle hr hf, State.transact_of_word hq, State.runWord_of_decode hd, State.accept, hq]
  rfl

/-! ### `RDCR` (R194) -/

/-- `RDCR` answers the register where it holds a value. -/
theorem exec_rdcr (s : State) (r : CrName) (h : r.needsAv = true → s.av = true) :
    exec (.rdcr (indexOfCr r)) s = .next (s.respond (s.readCr r)) := by
  have hn : (r.needsAv && !s.av) = false := by simpa using h
  simp [exec, execRdcr, hn]

/-- A register narrower than a word is answered with zeros above it (R15, R76). -/
theorem okResponse_zext16_nibble (v : Nibble) : okResponse (zext16 v) = (0 : BitVec 28) ++ v := by
  revert v; decide

theorem okResponse_zext16_byte (v : Byte) : okResponse (zext16 v) = (0 : BitVec 24) ++ v := by
  apply BitVec.eq_of_getLsbD_eq
  intro i hi
  simp only [okResponse, zext16, BitVec.getLsbD_append, BitVec.getLsbD_setWidth]
  by_cases h8 : i < 8
  · simp [h8, show i < 16 by omega]
  · simp [h8, BitVec.getLsbD_of_ge v i (by omega)]

theorem okResponse_idWord : okResponse idWord = 0x00005350 := by decide

theorem okResponse_capWord (s : State) :
    okResponse s.capWord = if s.cfg.diagEn then 0x00000014 else 0x00000004 := by
  unfold State.capWord
  cases s.cfg.diagEn <;> decide

/-- Settles O37, register by register. -/
theorem rdcrAnswersTheRegister : Obligations.RdcrAnswersTheRegister := by
  intro s
  refine ⟨?_, ?_, exec_rdcr s .status nofun, exec_rdcr s .deltaP nofun,
    exec_rdcr s .targetDu nofun, ?_, exec_rdcr s .iter nofun, fun ha => ⟨?_, exec_rdcr s .bestCnt fun _ => ha⟩⟩
  · rw [← okResponse_idWord]
    exact exec_rdcr s .id nofun
  · rw [← okResponse_capWord]
    exact exec_rdcr s .cap nofun
  · rw [← okResponse_zext16_nibble]
    exact exec_rdcr s .tmask nofun
  · rw [← okResponse_zext16_byte]
    exact exec_rdcr s .best fun _ => ha

/-! ### `WRCR` (R195) -/

/-- `WRCR` of a register that takes the data writes it and answers 0. -/
theorem exec_wrcr {s t : State} {r : CrName} {v : Word} (hc : s.cf = false) (h : s.writeCr r v = some t) :
    exec (.wrcr (indexOfCr r) v) s = .next (t.respond 0) := by
  simp [exec, execWrcr, hc, h]

/-- `WRCR` with operands out of range is refused, under a configuration fault with that cause first (R219). -/
theorem exec_wrcr_refused {s : State} {reg : Byte} {v : Word} (ha : argError (.wrcr reg v) = true) :
    exec (.wrcr reg v) s = .next (s.raise (if s.cf then .cfg else .arg)) := by
  cases hc : s.cf with
  | true => exact exec_of_fault hc rfl
  | false => exact exec_of_argError (by simp [hc]) ha

/-- The data `WRCR TMASK` accepts are the six legal values (R29). -/
theorem legalTmaskData_iff (v : Word) : legalTmaskData v = true ↔ v.toNat ∈ [3, 5, 6, 9, 10, 12] := by
  by_cases hv : v.toNat < 16
  · obtain ⟨n, hn⟩ : ∃ n : Fin 16, v = BitVec.ofNat 16 n := ⟨⟨v.toNat, hv⟩, by simp⟩
    subst hn
    clear hv; revert n; decide
  · have hl : legalTmaskData v = false := by
      rw [← Bool.not_eq_true', ← tmaskData_error]
      simp; omega
    simp [hl]; omega

/-- Settles O41, register by register. -/
theorem wrcrWritesTheNamedRegister : Obligations.WrcrWritesTheNamedRegister := by
  intro s v hc
  refine ⟨exec_wrcr (r := .deltaP) hc rfl, exec_wrcr (r := .targetDu) hc rfl, exec_wrcr (r := .iter) hc rfl,
    fun m hm => ?_⟩
  have hl : ∀ m ∈ [0b0011#4, 0b0101#4, 0b0110#4, 0b1001#4, 0b1010#4, 0b1100#4],
      legalTmaskData ((0 : BitVec 12) ++ m) = true := by decide
  have hx : ∀ m : BitVec 4, ((0 : BitVec 12) ++ m).extractLsb' 0 4 = m := by decide
  have hw : s.writeCr .tmask ((0 : BitVec 12) ++ m) = some { s with tmask := m } := by
    simp only [State.writeCr, hl m hm, hx, if_true]
  exact exec_wrcr hc hw

/-- Settles O42: such a write meets the condition of `E_ARG`. -/
theorem wrcrRefusesIllegalWrites : Obligations.WrcrRefusesIllegalWrites := by
  intro s reg v hc h
  have ha : argError (.wrcr reg v) = true := by
    rw [argError, tmaskData_error, Bool.or_eq_true]
    rcases h with hreg | ⟨h5, hv⟩
    · exact .inl (by simpa using hreg)
    · rw [← legalTmaskData_iff] at hv
      exact .inr (by simp [h5, hv])
  exact exec_of_argError (by simp [hc]) ha

/-! ### `STATUS` and `CAP` -/

theorem State.getLsbD_statusWord (s : State) (k : Nat) : s.statusWord.getLsbD k =
    if k = 0 then s.kv else if k = 1 then s.av else if k = 2 then s.cf
    else if k = 8 then s.sticky .ill else if k = 9 then s.sticky .cfg else if k = 10 then s.sticky .diag
    else if k = 11 then s.sticky .arg else if k = 12 then s.sticky .uninit else false := by
  by_cases hk : k < 16
  · simp only [State.statusWord, BitVec.getLsbD_append, BitVec.getLsbD_ofBool]
    interval_cases k <;> simp [State.sticky]
  · rw [BitVec.getLsbD_of_ge _ _ (by omega)]
    repeat rw [if_neg (by omega)]

/-- Settles O38: the bits, the answer, and the refused write. -/
theorem statusShowsEveryFlagAtItsBit : Obligations.StatusShowsEveryFlagAtItsBit := fun s =>
  ⟨s.getLsbD_statusWord, exec_rdcr s .status nofun, fun _ => exec_wrcr_refused rfl⟩

/-- Settles O39: the fields, the answer, and the refused write. -/
theorem capShowsRoundsAndDiagEn : Obligations.CapShowsRoundsAndDiagEn := by
  intro s
  have hbits : (s.capWord.extractLsb' 0 4).toNat = 4 ∧ s.capWord.getLsbD 4 = s.cfg.diagEn ∧
      s.capWord.extractLsb' 5 11 = 0 := by
    unfold State.capWord
    cases s.cfg.diagEn <;> decide
  obtain ⟨hrounds, hdiag, hzero⟩ := hbits
  exact ⟨hrounds, hdiag, hzero, exec_rdcr s .cap nofun, fun _ => exec_wrcr_refused rfl⟩

end Sys2Proof.Machine
end

section
/-!
Who writes what (10_state.md R21 to R36, R39): the frames of the shared operations and of the two loops that draw, and so
of every command.
-/

namespace Sys2Proof.Machine

/-- A register write touches the attack registers only (R195). -/
theorem State.writeCr_frame {s t : State} {r : CrName} {v : Word} (h : s.writeCr r v = some t) :
    t = { s with deltaP := t.deltaP, targetDu := t.targetDu, tmask := t.tmask, iter := t.iter } := by
  rcases State.writeCr_some h with ⟨-, rfl⟩ | ⟨-, rfl⟩ | ⟨-, -, rfl⟩ | ⟨-, rfl⟩ <;> rfl

/-- The loop of `KEYGEN` touches the keys, `KV`, `AV`, the FSM's registers and the outside only (R123). -/
theorem State.keygenLoop_frame (n : Nat) (s : State) :
    s.keygenLoop n = { s with
      keys := (s.keygenLoop n).keys, kv := (s.keygenLoop n).kv, av := (s.keygenLoop n).av
      fsm := (s.keygenLoop n).fsm, rspreg := (s.keygenLoop n).rspreg, work := (s.keygenLoop n).work
      env := (s.keygenLoop n).env } := by
  induction n generalizing s with
  | zero => rfl
  | succ n ih =>
    rcases s.draw_cases with ⟨-, -, hd⟩ | ⟨v, -, hd⟩ <;> simp only [State.keygenLoop, hd]
    exact ih ((s.drawn 1).putKey v)

/-- The loop of `ATK` touches the counters, `BEST`, `BESTCNT`, `AV`, the FSM's registers and the outside only (R162). -/
theorem State.atkLoop_frame (n : Nat) (s : State) :
    s.atkLoop n = { s with
      cnt := (s.atkLoop n).cnt, best := (s.atkLoop n).best, bestCnt := (s.atkLoop n).bestCnt, av := (s.atkLoop n).av
      fsm := (s.atkLoop n).fsm, rspreg := (s.atkLoop n).rspreg, work := (s.atkLoop n).work
      env := (s.atkLoop n).env } := by
  induction n generalizing s with
  | zero => rfl
  | succ n ih =>
    rcases s.draw_cases with ⟨-, -, hd⟩ | ⟨r, -, hd⟩ <;> simp only [State.atkLoop, hd]
    exact ih ((s.drawn 1).atkIterate r)

/-- Settles O43, by the shapes of the next states. -/
theorem onlyKeygenAndSrstWriteKeys : Obligations.OnlyKeygenAndSrstWriteKeys := by
  intro i s t hk hs h
  cases exec_shape h with
  | raise _ e => exact ⟨s.raise_keys e, s.raise_kv e⟩
  | respond _ d => exact ⟨rfl, rfl⟩
  | srst => exact absurd rfl hs
  | wrcr _ hw =>
    rw [State.writeCr_frame hw]
    exact ⟨rfl, rfl⟩
  | keygen _ => exact absurd rfl hk
  | atk _ _ =>
    rw [State.atkLoop_frame]
    exact ⟨rfl, rfl⟩

/-- Settles O44, by the shapes of the next states. -/
theorem onlyAtkAndSrstWriteResults : Obligations.OnlyAtkAndSrstWriteResults := by
  intro i s t ha hs h
  cases exec_shape h with
  | raise _ e => exact ⟨s.raise_cnt e, s.raise_best e, s.raise_bestCnt e, fun _ => s.raise_av e⟩
  | respond _ d => exact ⟨rfl, rfl, rfl, fun _ => rfl⟩
  | srst => exact absurd rfl hs
  | wrcr _ hw =>
    rw [State.writeCr_frame hw]
    exact ⟨rfl, rfl, rfl, fun _ => rfl⟩
  | keygen _ =>
    rw [State.keygenLoop_frame]
    exact ⟨rfl, rfl, rfl, fun hk => absurd rfl hk⟩
  | atk _ _ => exact absurd rfl ha

/-- Settles O45, by the shapes of the next states. -/
theorem onlyWrcrAndSrstWriteAttackRegisters : Obligations.OnlyWrcrAndSrstWriteAttackRegisters := by
  intro i s t h
  cases exec_shape h with
  | raise _ e =>
    exact ⟨s.raise_cfg e, fun _ => s.raise_cf e,
      fun _ _ => ⟨s.raise_deltaP e, s.raise_targetDu e, s.raise_tmask e, s.raise_iter e⟩⟩
  | respond _ d => exact ⟨rfl, fun _ => rfl, fun _ _ => ⟨rfl, rfl, rfl, rfl⟩⟩
  | srst => exact ⟨rfl, fun hs => absurd rfl hs, fun hs _ => absurd rfl hs⟩
  | wrcr _ hw =>
    rw [State.writeCr_frame hw]
    exact ⟨rfl, fun _ => rfl, fun _ hw => absurd rfl (hw _ _)⟩
  | keygen _ =>
    rw [State.keygenLoop_frame]
    exact ⟨rfl, fun _ => rfl, fun _ _ => ⟨rfl, rfl, rfl, rfl⟩⟩
  | atk _ _ =>
    rw [State.atkLoop_frame]
    exact ⟨rfl, fun _ => rfl, fun _ _ => ⟨rfl, rfl, rfl, rfl⟩⟩

end Sys2Proof.Machine
end

section
/-!
What nothing can observe (10_state.md R22, R34): a change of registers that no command reads passes through every
command that neither resets nor draws; then the three others.
-/

namespace Sys2Proof.Machine

/-- In the state `s` no command sees the change `f` of registers: the change commutes with answering, refusing and
register writes, and what a command may read of the changed registers is as before. -/
structure Unseen (f : State → State) (s : State) : Prop where
  raise (e : Cause) : (f s).raise e = f (s.raise e)
  respond (t : State) (d : Word) : (f t).respond d = f (t.respond d)
  write (r : CrName) (v : Word) : (f s).writeCr r v = (s.writeCr r v).map f
  cfg : (f s).cfg = s.cfg
  cf : (f s).cf = s.cf
  kv : (f s).kv = s.kv
  av : (f s).av = s.av
  keys : s.kv = true → (f s).keys = s.keys
  cnt : s.av = true → (f s).cnt = s.cnt
  read (r : CrName) : (r.needsAv = true → s.av = true) → (f s).readCr r = s.readCr r

section
variable {f : State → State} {s : State} (h : Unseen f s)
include h

/-- A refusal on a condition that is seen in both states passes the change through. -/
theorem Unseen.guarded {b : Bool} {e : Cause} {t t' : State} (ht : b = false → t' = f t) :
    (if b then (f s).raise e else t') = f (if b then s.raise e else t) := by
  cases b with
  | true => exact h.raise e
  | false => exact ht rfl

theorem Unseen.respond_congr {d d' : Word} (hd : d' = d) : (f s).respond d' = f (s.respond d) := by
  rw [hd, h.respond]

theorem Unseen.answerTable (d : Word) : (f s).answerTable d = f (s.answerTable d) := by
  unfold State.answerTable
  rw [h.cf]
  exact h.guarded fun _ => h.respond s d

theorem Unseen.exec_rdcr (reg : Byte) : exec (.rdcr reg) (f s) = .next (f (nextOr s (exec (.rdcr reg) s))) := by
  simp only [exec, execRdcr, nextOr, h.av]
  cases crOfIndex reg with
  | none => exact congrArg _ (h.raise _)
  | some r => exact congrArg _ (h.guarded fun hn => h.respond_congr (h.read r (by simpa using hn)))

theorem Unseen.exec_wrcr (reg : Byte) (v : Word) :
    exec (.wrcr reg v) (f s) = .next (f (nextOr s (exec (.wrcr reg v) s))) := by
  simp only [exec, execWrcr, nextOr, h.cf]
  refine congrArg _ (h.guarded fun _ => ?_)
  cases crOfIndex reg with
  | none => exact h.raise _
  | some r =>
    simp only [h.write]
    cases s.writeCr r v with
    | none => exact h.raise _
    | some t => exact h.respond t 0

/-- An unseen change passes through every command that neither resets nor draws. -/
theorem Unseen.exec {i : Instr} {t : State} (hs : i ≠ .srst) (hk : i ≠ .keygen) (ha : i ≠ .atk)
    (he : Machine.exec i s = .next t) : Machine.exec i (f s) = .next (f t) := by
  obtain rfl : nextOr s (Machine.exec i s) = t := by rw [he]; rfl
  cases i with
  | srst => exact absurd rfl hs
  | keygen => exact absurd rfl hk
  | atk => exact absurd rfl ha
  | nop => exact congrArg _ (h.respond s 0)
  | rdcr reg => exact h.exec_rdcr reg
  | wrcr reg v => exact h.exec_wrcr reg v
  | sub | isub | perm | iperm | ddtrd =>
    simp only [Machine.exec, execSub, execIsub, execPerm, execIperm, execDdtrd, nextOr, h.cfg, h.answerTable]
  | enc p =>
    simp only [Machine.exec, execEnc, nextOr, h.cf, h.kv, h.cfg]
    exact congrArg _ (h.guarded fun _ => h.guarded fun hv => h.respond_congr (by rw [h.keys (by simpa using hv)]))
  | dec x =>
    simp only [Machine.exec, execDec, nextOr, h.cf, h.kv, h.cfg]
    exact congrArg _ (h.guarded fun _ => h.guarded fun hv => h.respond_congr (by rw [h.keys (by simpa using hv)]))
  | lastkey =>
    simp only [Machine.exec, execLastkey, nextOr, h.cf, h.kv, h.cfg]
    exact congrArg _ (h.guarded fun _ => h.guarded fun _ => h.guarded fun hv =>
      h.respond_congr (by rw [h.keys (by simpa using hv)]))
  | cntrd c =>
    simp only [Machine.exec, execCntrd, nextOr, h.cf, h.av]
    exact congrArg _ (h.guarded fun _ => h.guarded fun hv => h.respond_congr (by rw [h.cnt (by simpa using hv)]))

theorem Unseen.refusalOf (i : Instr) : Machine.refusalOf i (f s) = Machine.refusalOf i s := by
  have hu : uninitError i (f s) = uninitError i s := by cases i <;> simp only [uninitError, h.kv, h.av]
  simp only [Machine.refusalOf, h.cf, h.cfg, hu]

/-- An unseen change passes through every refused command. -/
theorem Unseen.exec_of_refusalOf {i : Instr} {e : Cause} {t : State} (hr : Machine.refusalOf i s = some e)
    (he : Machine.exec i s = .next t) : Machine.exec i (f s) = .next (f t) := by
  cases (Machine.exec_of_refusalOf hr).symm.trans he
  rw [← h.raise]
  exact Machine.exec_of_refusalOf (by rw [h.refusalOf, hr])

end

theorem exec_keygen_of_accepted {s : State} (h : refusalOf .keygen s = none) :
    exec .keygen s = .next (s.keygenStart.keygenLoop 5) := by
  rw [refusalOf_keygen] at h
  cases hc : s.cf <;> simp [hc] at h
  simp [exec, execKeygen, hc]

theorem exec_atk_of_accepted {s : State} (h : refusalOf .atk s = none) :
    s.kv = true ∧ exec .atk s = .next (s.atkClear.atkLoop s.iter.toNat) := by
  rw [refusalOf_atk] at h
  cases hc : s.cf <;> cases hk : s.kv <;> simp [hc, hk] at h
  exact ⟨rfl, by simp [exec, execAtk, hc, hk]⟩

/-! ### The keys without `KV` (R22) -/

/-- The state with other key registers. -/
def State.withKeys (s : State) (k : Vector Word 5) : State := { s with keys := k }

theorem unseen_keys {s : State} (hkv : s.kv = false) (k : Vector Word 5) : Unseen (·.withKeys k) s where
  raise e := by cases e <;> rfl
  respond _ _ := rfl
  write r v := by
    cases r
    case tmask => simp only [State.writeCr]; split <;> rfl
    all_goals rfl
  cfg := rfl
  cf := rfl
  kv := rfl
  av := rfl
  keys h := by simp [hkv] at h
  cnt _ := rfl
  read r _ := by cases r <;> rfl

/-- `KEYGEN` draws the same whatever keys it overwrites. -/
theorem State.keygenLoop_withKeys (n : Nat) (s : State) (k : Vector Word 5) :
    ∃ k', (s.withKeys k).keygenLoop n = (s.keygenLoop n).withKeys k' := by
  induction n generalizing s k with
  | zero => exact ⟨k, rfl⟩
  | succ n ih =>
    rcases s.draw_cases with ⟨hp, -, -⟩ | ⟨v, hp, hd⟩
    · refine ⟨k, ?_⟩
      rw [State.keygenLoop_silent hp, State.keygenLoop_silent (by exact hp)]
      rfl
    · rw [State.keygenLoop, State.keygenLoop, hd, State.draw_of_peek (v := v) (by exact hp)]
      exact ih ((s.drawn 1).putKey v) (k.setIfInBounds s.work.kidx.toNat v)

/-- Settles O47: every command but `SRST` and `KEYGEN`, which overwrite the keys, leaves them unseen; `ATK` is
refused. -/
theorem keysAreUnobservableWithoutKv : Obligations.KeysAreUnobservableWithoutKv := by
  intro i s k hkv
  have hu := unseen_keys hkv k
  suffices h : ∃ t k', exec i s = .next t ∧ exec i (s.withKeys k) = .next (t.withKeys k') from h
  obtain ⟨t, ht⟩ := exec_total i s
  cases hr : refusalOf i s with
  | some e => exact ⟨t, k, ht, hu.exec_of_refusalOf hr ht⟩
  | none =>
    by_cases hs : i = .srst
    · subst hs
      exact ⟨_, _, rfl, rfl⟩
    by_cases hk : i = .keygen
    · subst hk
      obtain ⟨k', hl⟩ := s.keygenStart.keygenLoop_withKeys 5 k
      refine ⟨_, k', exec_keygen_of_accepted hr, ?_⟩
      rw [exec_keygen_of_accepted (by rw [hu.refusalOf, hr]), ← hl]
      rfl
    by_cases ha : i = .atk
    · subst ha
      have := (exec_atk_of_accepted hr).1
      simp [hkv] at this
    exact ⟨t, k, ht, hu.exec hs hk ha ht⟩

/-! ### The results without `AV` (R34) -/

/-- The state with other counters, `BEST` and `BESTCNT`. -/
def State.withResults (s : State) (n : Counters) (b : Byte) (bc : Word) : State :=
  { s with cnt := n, best := b, bestCnt := bc }

theorem unseen_results {s : State} (hav : s.av = false) (n : Counters) (b : Byte) (bc : Word) :
    Unseen (·.withResults n b bc) s where
  raise e := by cases e <;> rfl
  respond _ _ := rfl
  write r v := by
    cases r
    case tmask => simp only [State.writeCr]; split <;> rfl
    all_goals rfl
  cfg := rfl
  cf := rfl
  kv := rfl
  av := rfl
  keys _ := rfl
  cnt h := by simp [hav] at h
  read r h := by
    cases r
    case best | bestCnt => simp [hav, CrName.needsAv] at h
    all_goals rfl

/-- `KEYGEN` does not see the results. -/
theorem State.keygenLoop_withResults (m : Nat) (s : State) (n : Counters) (b : Byte) (bc : Word) :
    (s.withResults n b bc).keygenLoop m = (s.keygenLoop m).withResults n b bc := by
  induction m generalizing s with
  | zero => rfl
  | succ m ih =>
    rcases s.draw_cases with ⟨hp, -, -⟩ | ⟨v, hp, hd⟩
    · rw [State.keygenLoop_silent hp, State.keygenLoop_silent (by exact hp)]
      rfl
    · rw [State.keygenLoop, State.keygenLoop, hd, State.draw_of_peek (v := v) (by exact hp)]
      exact ih ((s.drawn 1).putKey v)

/-- The iterations of `ATK` count the same whatever `BEST` and `BESTCNT` they end up overwriting. -/
theorem State.atkLoop_withResults (m : Nat) (s : State) (b : Byte) (bc : Word) :
    ∃ n' b' bc', (s.withResults s.cnt b bc).atkLoop m = (s.atkLoop m).withResults n' b' bc' := by
  induction m generalizing s with
  | zero => exact ⟨_, _, _, rfl⟩
  | succ m ih =>
    rcases s.draw_cases with ⟨hp, -, -⟩ | ⟨r, hp, hd⟩
    · refine ⟨s.cnt, b, bc, ?_⟩
      rw [State.atkLoop_silent hp, State.atkLoop_silent (by exact hp)]
      rfl
    · rw [State.atkLoop, State.atkLoop, hd, State.draw_of_peek (v := r) (by exact hp)]
      exact ih ((s.drawn 1).atkIterate r)

/-- Settles O48: every command but `SRST` and `ATK`, which overwrite the results, leaves them unseen. -/
theorem resultsAreUnobservableWithoutAv : Obligations.ResultsAreUnobservableWithoutAv := by
  intro i s n b bc hav
  have hu := unseen_results hav n b bc
  suffices h : ∃ t n' b' bc', exec i s = .next t ∧
      exec i (s.withResults n b bc) = .next (t.withResults n' b' bc') from h
  obtain ⟨t, ht⟩ := exec_total i s
  cases hr : refusalOf i s with
  | some e => exact ⟨t, n, b, bc, ht, hu.exec_of_refusalOf hr ht⟩
  | none =>
    by_cases hs : i = .srst
    · subst hs
      exact ⟨_, _, _, _, rfl, rfl⟩
    by_cases hk : i = .keygen
    · subst hk
      refine ⟨_, n, b, bc, exec_keygen_of_accepted hr, ?_⟩
      rw [exec_keygen_of_accepted (by rw [hu.refusalOf, hr]), ← State.keygenLoop_withResults]
      rfl
    by_cases ha : i = .atk
    · subst ha
      obtain ⟨-, he⟩ := exec_atk_of_accepted hr
      obtain ⟨-, he'⟩ := exec_atk_of_accepted (s := s.withResults n b bc) (by rw [hu.refusalOf, hr])
      obtain ⟨n', b', bc', hl⟩ := s.atkClear.atkLoop_withResults s.iter.toNat b bc
      exact ⟨_, n', b', bc', he, by rw [he', ← hl]; rfl⟩
    exact ⟨t, n, b, bc, ht, hu.exec hs hk ha ht⟩

end Sys2Proof.Machine
end

section
/-!
Words on the pins and holds (10_state.md R40, R41; 43_attack.md R165 to R177; 70_reset_and_hazards.md R227): what one FSM
transition does to the outside, and when the block waits.
-/

namespace Sys2Proof.Machine

/-! ### What a transition does to the outside -/

/-- What `S_IDLE` does with an accepted word touches nothing outside the block (R169). -/
theorem State.dispatchWord_env (s : State) (w : CmdWord) : (s.dispatchWord w).env = s.env := by
  rcases s.dispatchWord_cases w with ⟨e, h⟩ | ⟨-, h⟩ | ⟨-, h⟩ | ⟨i, -, hk, ha, h⟩
  · rw [h, State.raise_env]
  · rw [h]; rfl
  · rw [h]
  · obtain ⟨n, he, hn, -, -⟩ := onlyKeygenAndAtkDraw i s _ h
    rw [he, hn hk ha, Rng.after_zero]

theorem State.tickKg_env {s : State} {v : Word} (h : s.env.rng.peek 0 = some v) : s.tickKg.env = (s.drawn 1).env := by
  rw [State.tickKg_of_peek h]
  split <;> rfl

theorem State.tickDraw_env {s : State} {v : Word} (h : s.env.rng.peek 0 = some v) :
    s.tickDraw.env = (s.drawn 1).env := by
  rw [State.tickDraw, State.draw_of_peek h]

theorem State.tickKg_of_silent {s : State} (h : s.env.rng.peek 0 = none) : s.tickKg = s := by
  rw [State.tickKg, State.draw_of_silent h]

theorem State.tickDraw_of_silent {s : State} (h : s.env.rng.peek 0 = none) : s.tickDraw = s := by
  rw [State.tickDraw, State.draw_of_silent h]

section
variable {s : State} (hr : s.env.rst = false)
include hr

/-- An idle block accepts the word presented (R169). -/
theorem State.tick_env_of_word (hf : s.fsm = .idle) {w : CmdWord} {rest : List CmdWord} (hq : s.env.cmdq = w :: rest) :
    s.tick.env = s.accept.env := by
  rw [State.tick_idle hr hf, State.tickIdle_of_word hq, State.dispatchWord_env]

/-- At a draw the block takes the value presented (R166, R170). -/
theorem State.tick_env_of_peek (hf : s.fsm = .kg ∨ s.fsm = .draw) {v : Word} (hp : s.env.rng.peek 0 = some v) :
    s.tick.env = (s.drawn 1).env := by
  rcases hf with hf | hf
  · rw [State.tick_kg hr hf, State.tickKg_env hp]
  · rw [State.tick_draw hr hf, State.tickDraw_env hp]

/-- At a draw the block waits while the RNG presents nothing (R166, R170). -/
theorem State.tick_of_silent (hf : s.fsm = .kg ∨ s.fsm = .draw) (hp : s.env.rng.peek 0 = none) : s.tick = s := by
  rcases hf with hf | hf
  · rw [State.tick_kg hr hf, State.tickKg_of_silent hp]
  · rw [State.tick_draw hr hf, State.tickDraw_of_silent hp]

/-- Everything a transition can do to the outside: nothing, or one handshake of the port the FSM state is ready at. -/
theorem State.tick_env_cases :
    s.tick.env = s.env ∨ (s.fsm = .idle ∧ s.tick.env = s.accept.env) ∨
      ((s.fsm = .kg ∨ s.fsm = .draw) ∧ s.tick.env = (s.drawn 1).env) ∨
      (s.fsm = .rsp ∧ s.tick.env = s.handOver.env) := by
  have atDraw (hf : s.fsm = .kg ∨ s.fsm = .draw) : s.tick.env = s.env ∨ s.tick.env = (s.drawn 1).env := by
    cases hp : s.env.rng.peek 0 with
    | none => exact .inl (by rw [State.tick_of_silent hr hf hp])
    | some v => exact .inr (State.tick_env_of_peek hr hf hp)
  cases hf : s.fsm
  case idle =>
    cases hq : s.env.cmdq with
    | nil => exact .inl (by rw [State.tick_idle hr hf, State.tickIdle_of_none hq])
    | cons w rest => exact .inr (.inl ⟨rfl, State.tick_env_of_word hr hf hq⟩)
  case kg => exact (atDraw (.inl hf)).imp_right fun h => .inr (.inl ⟨.inl rfl, h⟩)
  case draw => exact (atDraw (.inr hf)).imp_right fun h => .inr (.inl ⟨.inr rfl, h⟩)
  case rsp =>
    rw [State.tick_rsp hr hf]
    rcases s.tickRsp_cases with ⟨-, h⟩ | ⟨-, h⟩ <;> rw [h]
    · exact .inl rfl
    · exact .inr (.inr (.inr ⟨rfl, rfl⟩))
  case clr => exact .inl (by rw [State.tick_clr hr hf]; rfl)
  case chk => exact .inl (by rw [State.tick_chk hr hf, State.tickChk]; split <;> rfl)
  case q1 => exact .inl (by rw [State.tick_q1 hr hf]; rfl)
  case q2 => exact .inl (by rw [State.tick_q2 hr hf]; rfl)
  case filt => exact .inl (by rw [State.tick_filt hr hf, State.tickFilt]; split <;> rfl)
  case cand =>
    rw [State.tick_cand hr hf, State.tickCand_eq (n := s.work.cand.toFin) rfl rfl]
    exact .inl (by split <;> rfl)
  case next => exact .inl (by rw [State.tick_next hr hf]; rfl)
  case amax =>
    rw [State.tick_amax hr hf, State.tickAmax_eq rfl]
    exact .inl (by split <;> rfl)

/-- A command word moves only out of `S_IDLE`. -/
theorem State.tick_keeps_cmdq (hf : s.fsm ≠ .idle) :
    s.tick.env.cmdq = s.env.cmdq ∧ s.tick.env.cmdIdx = s.env.cmdIdx := by
  rcases State.tick_env_cases hr with h | ⟨h, -⟩ | ⟨-, h⟩ | ⟨-, h⟩
  case inr.inl => exact absurd h hf
  all_goals rw [h]; exact ⟨rfl, rfl⟩

/-- A random value moves only at a draw. -/
theorem State.tick_keeps_rng (hf : ¬ (s.fsm = .kg ∨ s.fsm = .draw)) : s.tick.env.rng = s.env.rng := by
  rcases State.tick_env_cases hr with h | ⟨-, h⟩ | ⟨h, -⟩ | ⟨-, h⟩
  case inr.inr.inl => exact absurd h hf
  all_goals simp [h]

/-- A response moves only out of `S_RSP`. -/
theorem State.tick_keeps_taken (hf : s.fsm ≠ .rsp) : s.tick.env.taken = s.env.taken := by
  rcases State.tick_env_cases hr with h | ⟨-, h⟩ | ⟨-, h⟩ | ⟨h, -⟩
  case inr.inr.inr => exact absurd h hf
  all_goals simp [h]

/-! ### Holds -/

/-- A command held at a draw waits, unchanged, while the RNG presents nothing (R227). -/
theorem step_of_silent (hi : s.fsmInv) (hf : s.fsm = .kg ∨ s.fsm = .draw) (hp : s.env.rng.peek 0 = none) :
    step s = .next s := by
  rcases hf with hf | hf <;> simp only [State.fsmInv, hf] at hi
  · obtain ⟨n, hn⟩ : ∃ n, 5 - s.work.kidx.toNat = n + 1 := ⟨4 - s.work.kidx.toNat, by omega⟩
    have hs : step s = .next s.keygenResume := by simp [step, hr, hf]
    rw [hs, State.keygenResume, hn, State.keygenLoop_silent hp, ← hf]
  · obtain ⟨-, hlt⟩ := hi
    obtain ⟨n, hn⟩ : ∃ n, s.iter.toNat - s.work.it.toNat = n + 1 := ⟨s.iter.toNat - s.work.it.toNat - 1, by omega⟩
    have hs : step s = .next s.atkResume := by simp [step, hr, hf]
    rw [hs, State.atkResume, hn, State.atkLoop_silent hp, ← hf]

/-- A step of an answered block is the transition of `S_RSP` (R177). -/
theorem step_of_rsp (hf : s.fsm = .rsp) : step s = .next s.tickRsp ∧ s.tick = s.tickRsp := by
  have ht := State.tick_rsp hr hf
  rw [step_eq_tick (by simp [hf]) (by simp [hf]) (by simp [hf]), ht]
  exact ⟨rfl, rfl⟩

/-- A word moves only where the block's side of that handshake is 1 (R40). -/
theorem State.tick_keeps_unready :
    (s.outputs.cmdReady = false → s.tick.env.cmdq = s.env.cmdq ∧ s.tick.env.cmdIdx = s.env.cmdIdx) ∧
    (s.outputs.rngReady = false → s.tick.env.rng = s.env.rng) ∧
    (s.outputs.rspValid = false → s.tick.env.taken = s.env.taken) := by
  simp only [← Bool.not_eq_true, State.cmdReady_iff hr, State.rngReady_iff hr, State.rspValid_iff hr]
  exact ⟨State.tick_keeps_cmdq hr, State.tick_keeps_rng hr, State.tick_keeps_taken hr⟩

end

/-- Settles O58, pin by pin and hold by hold. -/
theorem holdsChangeNothing : Obligations.HoldsChangeNothing := by
  refine ⟨fun s hr => ?_, fun s hr hi => ⟨fun hf hp => ?_, fun hf hq => ?_, fun hf hn => ?_, fun hf hy => ?_⟩⟩
  · obtain ⟨hcmd, hrng, htaken⟩ := State.tick_keeps_unready hr
    refine ⟨State.cmdReady_iff hr, State.rngReady_iff hr, State.rspValid_iff hr, s.outputs_rsp, rfl, hcmd, hrng, htaken,
      fun hc w rest hq => ?_, fun hc hp => ?_⟩
    · rw [State.tick_env_of_word hr ((State.cmdReady_iff hr).1 hc) hq, State.accept, hq]
      exact ⟨rfl, rfl⟩
    · obtain ⟨v, hv⟩ := Option.ne_none_iff_exists'.1 hp
      rw [State.tick_env_of_peek hr ((State.rngReady_iff hr).1 hc) hv]
      rfl
  · exact ⟨step_of_silent hr hi hf hp, State.tick_of_silent hr hf hp⟩
  · rw [step_of_idle hr hf, State.transact_of_none hq, State.tick_idle hr hf, State.tickIdle_of_none hq]
    exact ⟨rfl, rfl⟩
  · obtain ⟨hs, ht⟩ := step_of_rsp hr hf
    rw [hs, ht, State.tickRsp, hn]
    exact ⟨rfl, rfl⟩
  · obtain ⟨hs, -⟩ := step_of_rsp hr hf
    rw [hs, State.tickRsp, hy]
    rfl

end Sys2Proof.Machine
end

section
/-!
# The order of the draws

`ATK` adds up what each drawn plaintext contributes, so the order in which the RNG hands the values over does not show
in the counters (20_memory.md R66, 43_attack.md R185).
-/

namespace Sys2Proof.Machine

/-- A run's counter is the number, modulo `2^16`, of the drawn values whose pair the candidate counts (R159, R160). -/
theorem AttackIn.run_get (x : AttackIn) (rs : List Word) (i : Fin 256) :
    (x.run rs)[i] = BitVec.ofNat 16 (rs.countP fun r => x.counts r (BitVec.ofFin i)) := by
  rw [AttackIn.run, AttackIn.foldl_iteration_get, zeroCounters_get]
  exact BitVec.zero_add _

/-- Settles O27: each counter is a count over the drawn values, and permuted lists have the same counts. -/
theorem countersIgnoreTheOrderOfDraws : Obligations.CountersIgnoreTheOrderOfDraws := by
  intro x rs rs' hperm
  refine counters_ext fun i => ?_
  rw [AttackIn.run_get, AttackIn.run_get, hperm.countP_eq]

end Sys2Proof.Machine
end

section
/-!
Command words (30_encoding.md R71 to R75): the decoder inverts the encoder, and accepts exactly the words that a row of
the opcode map selects.
-/

namespace Sys2Proof

/-! ### The round trip -/

/-- Every command is read back from its encoding: each format's fields hold its operands and zeros. -/
theorem decode_encode (i : Instr) : decode (encode i) = .ok i := by
  cases i
  case nop | srst | keygen | lastkey | atk => simp [encode, decode, decodeZ_ok]
  case perm | iperm | enc | dec => simp [encode, decode, decodeW_ok]
  case sub | isub => simp [encode, decode, decodeN_ok]
  case rdcr | ddtrd | cntrd => simp [encode, decode, decodeX_ok]
  case wrcr => simp [encode, decode]

/-- A word that decodes is the encoding of what it decodes to. The decoder's arms are taken format by format, in the order
`XW`, `Z`, `W`, `N`, `X`, with `DDTRD`, whose index is two nibbles, apart. -/
theorem encode_of_decode {w : CmdWord} {i : Instr} (h : decode w = .ok i) : encode i = w := by
  rw [← mkWord_fields w]
  unfold decode at h
  generalize fieldOp w = op, fieldA w = a, fieldD w = d at h ⊢
  split at h
  case h_4 => cases h; rfl
  case h_1 | h_2 | h_9 | h_12 | h_14 => obtain ⟨rfl, rfl, rfl⟩ := decodeZ_ok.1 h; rfl
  case h_7 | h_8 | h_10 | h_11 => obtain ⟨rfl, rfl⟩ := decodeW_ok.1 h; rfl
  case h_5 | h_6 => obtain ⟨rfl, n, rfl, rfl⟩ := decodeN_ok.1 h; rfl
  case h_3 | h_15 => obtain ⟨rfl, rfl⟩ := decodeX_ok.1 h; rfl
  case h_13 => obtain ⟨rfl, rfl⟩ := decodeX_ok.1 h; exact congrArg (mkWord 0x30 · 0) (nibbles_append a)
  case h_16 => cases h

theorem decode_eq_ok_iff {w : CmdWord} {i : Instr} : decode w = .ok i ↔ encode i = w :=
  ⟨encode_of_decode, fun h => h ▸ decode_encode i⟩

/-! ### The decoder against the opcode table -/

theorem decodeZ_isOk (n : String) (a : Byte) (d : Word) (i : Instr) :
    (decodeZ n a d i).isOk = Format.Z.admits a d := by
  rw [decodeZ, Format.admits]; split <;> simp_all [Except.isOk, Except.toBool]

theorem decodeW_isOk (n : String) (a : Byte) (d : Word) (mk : Word → Instr) :
    (decodeW n a d mk).isOk = Format.W.admits a d := by
  rw [decodeW, Format.admits]; split <;> simp_all [Except.isOk, Except.toBool]

theorem decodeN_isOk (n : String) (a : Byte) (d : Word) (mk : Nibble → Instr) :
    (decodeN n a d mk).isOk = Format.N.admits a d := by
  rw [decodeN, Format.admits]; split <;> simp_all [Except.isOk, Except.toBool]

theorem decodeX_isOk (n : String) (a : Byte) (d : Word) (mk : Byte → Instr) :
    (decodeX n a d mk).isOk = Format.X.admits a d := by
  rw [decodeX, Format.admits]; split <;> simp_all [Except.isOk, Except.toBool]

/-- The decoder accepts exactly the words that a row of the opcode map selects (R72, R73). -/
theorem decode_isOk (w : CmdWord) : (decode w).isOk = opcodeTable.any (·.selects w) := by
  have hs (r : OpcodeRow) : r.selects w = (fieldOp w == r.op && r.format.admits (fieldA w) (fieldD w)) := by
    rw [← selects_mkWord, mkWord_fields]
  simp only [hs, opcodeTable, decode, List.any_cons, List.any_nil]
  generalize fieldOp w = op, fieldA w = a, fieldD w = d
  split
  case h_4 => rfl
  case h_1 | h_2 | h_9 | h_12 | h_14 => simp [decodeZ_isOk]
  case h_7 | h_8 | h_10 | h_11 => simp [decodeW_isOk]
  case h_5 | h_6 => simp [decodeN_isOk]
  case h_3 | h_13 | h_15 => simp [decodeX_isOk]
  case h_16 => simp_all [Except.isOk, Except.toBool]

/-- No two rows of the opcode map share their `OP` (R73). -/
theorem opcodeTable_op_inj : ∀ r ∈ opcodeTable, ∀ r' ∈ opcodeTable, r.op = r'.op → r = r' := by decide

/-- A word's `OP` is that of the row it selects. -/
theorem fieldOp_of_selects {r : OpcodeRow} {w : CmdWord} (h : r.selects w = true) : fieldOp w = r.op := by
  rw [← mkWord_fields w, selects_mkWord, Bool.and_eq_true, beq_iff_eq] at h
  exact h.1

/-- The encoding of every command selects the row of its mnemonic. -/
theorem encode_selectsRow : ∀ i, Laws.SelectsRow.Statement i
  | .nop => Laws.SelectsRow.nop
  | .srst => Laws.SelectsRow.srst
  | .rdcr _ => Laws.SelectsRow.rdcr _
  | .wrcr _ _ => Laws.SelectsRow.wrcr _ _
  | .sub _ => Laws.SelectsRow.sub _
  | .isub _ => Laws.SelectsRow.isub _
  | .perm _ => Laws.SelectsRow.perm _
  | .iperm _ => Laws.SelectsRow.iperm _
  | .keygen => Laws.SelectsRow.keygen
  | .enc _ => Laws.SelectsRow.enc _
  | .dec _ => Laws.SelectsRow.dec _
  | .lastkey => Laws.SelectsRow.lastkey
  | .ddtrd _ _ => Laws.SelectsRow.ddtrd _ _
  | .atk => Laws.SelectsRow.atk
  | .cntrd _ => Laws.SelectsRow.cntrd _

/-! ### The statements -/

/-- Settles O1, format by format. -/
theorem decodeEncodeRoundTrip : Obligations.DecodeEncodeRoundTrip := decode_encode

/-- Settles O2: the decoder inverts the encoder, and the encoding of a command selects its row. -/
theorem decodeAgreesWithOpcodeTable : Obligations.DecodeAgreesWithOpcodeTable := by
  intro w i
  rw [decode_eq_ok_iff, iff_self_and]
  rintro rfl
  exact encode_selectsRow i

/-- Settles O3: the decoder accepts what some row selects, and rows differ in their `OP`. -/
theorem illegalWordsAreThoseNoRowSelects : Obligations.IllegalWordsAreThoseNoRowSelects := by
  intro w
  refine ⟨?_, fun r hr r' hr' h h' =>
    opcodeTable_op_inj r hr r' hr' ((fieldOp_of_selects h).symm.trans (fieldOp_of_selects h'))⟩
  have he : (∃ e, decode w = .error e) ↔ (decode w).isOk = false := by
    cases decode w <;> simp [Except.isOk, Except.toBool]
  rw [he, decode_isOk, List.any_eq_false]
  simp

/-- Settles O4: the commands by the round trip, the two illegal words by the decoder's own arms. -/
theorem sampleWordsDecode : Obligations.SampleWordsDecode :=
  ⟨decode_encode .nop, decode_encode (.wrcr 6 5000), decode_encode (.sub 0xB), decode_encode (.perm 0x1234),
    decode_encode (.enc 0x1234), decode_encode (.ddtrd 0xB 2), decode_encode (.cntrd 255), rfl, rfl⟩

end Sys2Proof
end

section
/-!
Responses (30_encoding.md R76, R77): whatever brings a block to its response brings it to a well-formed one; and the
refusals whose words the spec writes out (R74; 60_exceptions.md R214 to R216).
-/

namespace Sys2Proof.Machine

/-! ### Well-formed responses -/

/-- A response word as R76 and R77 have it: bits 27:16 zero, a code of at most 5, and no data beside an error code. -/
def WellFormedResponse (r : CmdWord) : Prop :=
  r.extractLsb' 16 12 = 0 ∧ (r.extractLsb' 28 4).toNat ≤ 5 ∧ (r.extractLsb' 28 4 ≠ 0 → r.extractLsb' 0 16 = 0)

theorem wellFormedResponse_refused (e : Cause) : WellFormedResponse (refusedResponse e.code) := by
  unfold WellFormedResponse
  cases e <;> decide

theorem wellFormedResponse_ok (d : Word) : WellFormedResponse (okResponse d) := by
  have high (k n : Nat) (hk : 16 ≤ k) : (okResponse d).extractLsb' k n = 0 := by
    rw [okResponse, BitVec.extractLsb'_append_eq_of_le hk]
    exact BitVec.extractLsb'_zero
  exact ⟨high 16 12 (by omega), by simp [high 28 4], fun h => absurd (high 28 4 (by omega)) h⟩

/-- The response of a block that has one is well-formed. -/
def State.AnswersWell (s : State) : Prop := s.fsm = .rsp → WellFormedResponse s.rspreg

theorem State.answersWell_of_ne {s : State} (h : s.fsm ≠ .rsp) : s.AnswersWell := fun hf => absurd hf h

theorem State.answersWell_raise (s : State) (e : Cause) : (s.raise e).AnswersWell :=
  fun _ => wellFormedResponse_refused e

theorem State.answersWell_respond (s : State) (d : Word) : (s.respond d).AnswersWell := fun _ => wellFormedResponse_ok d

/-- The loop of `KEYGEN` answers 0 or holds. -/
theorem State.answersWell_keygenLoop (n : Nat) (s : State) : (s.keygenLoop n).AnswersWell := by
  rcases State.keygenLoop_cases n s with ⟨vs, -, -, h⟩ | ⟨vs, -, -, -, -, h⟩ <;> rw [h]
  · exact State.answersWell_respond _ 0
  · exact State.answersWell_of_ne nofun

/-- The loop of `ATK` answers the arg-max or holds. -/
theorem State.answersWell_atkLoop (n : Nat) (s : State) : (s.atkLoop n).AnswersWell := by
  rcases State.atkLoop_cases n s with ⟨rs, -, -, h⟩ | ⟨rs, -, -, -, -, h⟩ <;> rw [h]
  · exact State.answersWell_respond _ _
  · exact State.answersWell_of_ne nofun

theorem answersWell_of_exec {i : Instr} {s t : State} (h : exec i s = .next t) : t.AnswersWell := by
  cases exec_shape h with
  | raise _ e => exact s.answersWell_raise e
  | respond _ d => exact s.answersWell_respond d
  | srst => exact s.toReset.answersWell_respond 0
  | wrcr _ _ => exact State.answersWell_respond _ 0
  | keygen _ => exact State.answersWell_keygenLoop 5 _
  | atk _ _ => exact State.answersWell_atkLoop _ _

theorem State.answersWell_dispatchWord (s : State) (w : CmdWord) : (s.dispatchWord w).AnswersWell := by
  rcases s.dispatchWord_cases w with ⟨e, h⟩ | ⟨-, h⟩ | ⟨-, h⟩ | ⟨i, -, -, -, h⟩
  · rw [h]; exact s.answersWell_raise e
  · rw [h]; exact State.answersWell_of_ne nofun
  · rw [h]; exact State.answersWell_of_ne nofun
  · exact answersWell_of_exec h

theorem State.answersWell_of_runWord {s t : State} {w : CmdWord} (h : s.runWord w = .next t) : t.AnswersWell := by
  unfold State.runWord at h
  split at h
  · cases h; exact s.answersWell_raise .ill
  · exact answersWell_of_exec h

theorem State.answersWell_tickChk (s : State) : s.tickChk.AnswersWell := by
  unfold State.tickChk
  split <;> exact State.answersWell_of_ne nofun

theorem State.answersWell_tickFilt (s : State) : s.tickFilt.AnswersWell := by
  unfold State.tickFilt
  split <;> exact State.answersWell_of_ne nofun

/-! ### Transitions and steps -/

section
variable {s : State}

theorem State.answersWell_of_transact {t : State} (hf : s.fsm = .idle) (h : s.transact = .next t) : t.AnswersWell := by
  cases hq : s.env.cmdq with
  | nil =>
    rw [State.transact_of_none hq] at h
    cases h
    exact State.answersWell_of_ne (by simp [hf])
  | cons w rest =>
    rw [State.transact_of_word hq] at h
    exact State.answersWell_of_runWord h

theorem State.answersWell_tickIdle (hf : s.fsm = .idle) : s.tickIdle.AnswersWell := by
  cases hq : s.env.cmdq with
  | nil => rw [State.tickIdle_of_none hq]; exact State.answersWell_of_ne (by simp [hf])
  | cons w rest => rw [State.tickIdle_of_word hq]; exact State.answersWell_dispatchWord _ w

/-- The last key is answered with 0 (R166). -/
theorem State.answersWell_tickKg (hf : s.fsm = .kg) : s.tickKg.AnswersWell := by
  cases hp : s.env.rng.peek 0 with
  | none => rw [State.tickKg_of_silent hp]; exact State.answersWell_of_ne (by simp [hf])
  | some v =>
    rw [State.tickKg_of_peek hp]
    split
    · exact fun _ => wellFormedResponse_ok 0
    · exact State.answersWell_of_ne (by simp [hf])

theorem State.answersWell_tickDraw (hf : s.fsm = .draw) : s.tickDraw.AnswersWell := by
  cases hp : s.env.rng.peek 0 with
  | none => rw [State.tickDraw_of_silent hp]; exact State.answersWell_of_ne (by simp [hf])
  | some v => rw [State.tickDraw, State.draw_of_peek hp]; exact State.answersWell_of_ne nofun

theorem State.answersWell_tickCand (hf : s.fsm = .cand) : s.tickCand.AnswersWell := by
  rw [State.tickCand_eq (n := s.work.cand.toFin) rfl rfl]
  split <;> exact State.answersWell_of_ne (by simp [hf])

/-- The last candidate is followed by the answer (R176). -/
theorem State.answersWell_tickAmax (hf : s.fsm = .amax) : s.tickAmax.AnswersWell := by
  rw [State.tickAmax_eq rfl]
  split
  · exact fun _ => wellFormedResponse_ok _
  · exact State.answersWell_of_ne (by simp [hf])

/-- A transition that brings the block to a response brings it to a well-formed one. -/
theorem State.answersWell_tick (hn : s.fsm ≠ .rsp) : s.tick.AnswersWell := by
  unfold State.tick
  split
  · exact State.answersWell_of_ne nofun
  · cases hf : s.fsm
    case idle => exact State.answersWell_tickIdle hf
    case kg => exact State.answersWell_tickKg hf
    case draw => exact State.answersWell_tickDraw hf
    case cand => exact State.answersWell_tickCand hf
    case amax => exact State.answersWell_tickAmax hf
    case rsp => exact absurd hf hn
    case clr | q1 | q2 | next => exact State.answersWell_of_ne nofun
    case chk => exact s.answersWell_tickChk
    case filt => exact s.answersWell_tickFilt

/-- A step that brings the block to a response brings it to a well-formed one. -/
theorem State.answersWell_of_step {t : State} (hn : s.fsm ≠ .rsp) (h : step s = .next t) : t.AnswersWell := by
  by_cases hr : s.env.rst = true
  · have hs : step s = .next s.tick := by simp [step, State.tick, hr]
    cases hs.symm.trans h
    exact State.answersWell_tick hn
  · cases hf : s.fsm
    case idle =>
      rw [step_of_idle (by simpa using hr) hf] at h
      exact State.answersWell_of_transact hf h
    case kg =>
      have hs : step s = .next s.keygenResume := by simp [step, hr, hf]
      cases hs.symm.trans h
      exact State.answersWell_keygenLoop _ s
    case draw =>
      have hs : step s = .next s.atkResume := by simp [step, hr, hf]
      cases hs.symm.trans h
      exact State.answersWell_atkLoop _ s
    all_goals
      rw [step_eq_tick (by simp [hf]) (by simp [hf]) (by simp [hf])] at h
      cases h
      exact State.answersWell_tick hn

end

/-- Settles O10: a response is the answer of a command, a loop or a scan, or the code of a refusal. -/
theorem responseWordsAreWellFormed : Obligations.ResponseWordsAreWellFormed := by
  rintro s t (⟨i, h⟩ | ⟨hn, h | rfl⟩)
  · exact answersWell_of_exec h
  · exact State.answersWell_of_step hn h
  · exact State.answersWell_tick hn

/-! ### Refusals written out -/

/-- A word that is no command is refused (R74). -/
theorem State.runWord_of_illegal {w : CmdWord} {e : Illegal} (h : decode w = .error e) (s : State) :
    s.runWord w = .next (s.raise .ill) := by
  simp [State.runWord, h]

/-- Settles O6: an idle block accepts the word and refuses it. -/
theorem illegalWordIsRefused : Obligations.IllegalWordIsRefused := by
  intro s w rest e hr hf hq hd
  rw [step_of_idle hr hf, State.transact_of_word hq, State.runWord_of_illegal hd, State.accept, hq]
  rfl

/-- Settles O40: each command meets the condition of its cause, and no earlier check refuses it. -/
theorem missingThingsAreRefused : Obligations.MissingThingsAreRefused := by
  intro s w cand reg diag arg uninit
  refine ⟨fun hreg => ?_, fun hav => ⟨?_, ?_⟩, fun hcf => ⟨exec_lastkey_of_no_diag hcf, fun hkv => ?_, fun hav => ?_⟩⟩
  · exact exec_of_argError (fun _ => rfl) (by simp [argError]; omega)
  · exact exec_of_uninitError (fun _ => rfl) nofun (by simp [uninitError, hav])
  · exact exec_of_uninitError (fun _ => rfl) nofun (by simp [uninitError, hav])
  · have refused {i : Instr} (hd : i = .lastkey → s.cfg.diagEn = true) (hu : uninitError i s = !s.kv) :
        exec i s = .next (s.raise .uninit) :=
      exec_of_uninitError (by simp [hcf]) hd (by simp [hu, hkv])
    exact ⟨refused nofun rfl, refused nofun rfl, refused nofun rfl, fun hd => refused (fun _ => hd) rfl⟩
  · exact exec_of_uninitError (by simp [hcf]) nofun (by simp [uninitError, hav])

end Sys2Proof.Machine
end

section
/-!
The assembler's text (30_encoding.md R79, R80, R82): the value of a number, the words of every line laid out as in the
spec's examples, and that only words of commands come out of lines other than `.word`.
-/

namespace Sys2Proof.Machine.Asm

/-! ### Which lines give commands -/

/-- A line that is accepted and is no `.word` line gives the words of commands. -/
theorem assembleLine_commands {line : List Char} {ws : List CmdWord} (h : assembleLine line = some ws)
    (hm : ((trim (dropComment line)).takeWhile fun ch => !isBlank ch) ≠ ".word".toList) :
    ∃ is : List Instr, ws = is.map encode := by
  simp only [assembleLine, if_neg hm] at h
  split at h
  · exact ⟨[], (Option.some.inj h).symm⟩
  · obtain ⟨is, -, rfl⟩ := Option.map_eq_some_iff.1 h
    exact ⟨is, rfl⟩

/-- Settles O59: the words of commands decode. -/
theorem assembledWordsAreCommands : Obligations.AssembledWordsAreCommands := by
  intro line ws h hm w hw
  obtain ⟨is, rfl⟩ := assembleLine_commands h hm
  obtain ⟨i, -, rfl⟩ := List.mem_map.1 hw
  exact ⟨i, decode_encode i⟩

/-- Text after the first semicolon stands for nothing (R79). -/
theorem assembleLine_comment (text comment : List Char) :
    assembleLine (text ++ ';' :: comment) = assembleLine text := by
  have hd : dropComment (text ++ ';' :: comment) = dropComment text := by
    unfold dropComment
    induction text with
    | nil => rfl
    | cons c text ih =>
      by_cases hc : c = ';' <;> simp [hc, ih]
  simp only [assembleLine, hd]

/-! ### Numbers (R79) -/

/-- Digits without the mark of a base are decimal. -/
theorem number_decimal {l : List Char} (h0 : l ≠ []) (h : ∀ ch ∈ l, ch ≠ 'x' ∧ ch ≠ 'b') :
    number l = digits 10 0 l := by
  unfold number
  split
  case h_1 => exact absurd rfl h0
  case h_2 | h_4 => exact absurd rfl (h 'x' (by simp)).1
  case h_3 | h_5 => exact absurd rfl (h 'b' (by simp)).2
  case h_6 => rfl

theorem number_hexadecimal {l : List Char} (h0 : l ≠ []) : number ('0' :: 'x' :: l) = digits 16 0 l := by
  obtain ⟨c, l, rfl⟩ := List.exists_cons_of_ne_nil h0
  rfl

theorem number_binary {l : List Char} (h0 : l ≠ []) : number ('0' :: 'b' :: l) = digits 2 0 l := by
  obtain ⟨c, l, rfl⟩ := List.exists_cons_of_ne_nil h0
  rfl

/-- A decimal digit is no letter that marks a base. -/
theorem digitText_decimal : ∀ d < 10, digitText d ≠ 'x' ∧ digitText d ≠ 'b' := by decide

/-- The value of a number written in digits of its base, after the mark of that base. -/
theorem number_digitText {b : Nat} {pre : List Char} (hb : (b, pre) ∈ [(10, []), (16, ['0', 'x']), (2, ['0', 'b'])])
    {ds : List Nat} (h0 : ds ≠ []) (hd : ∀ d ∈ ds, d < b) :
    number (pre ++ ds.map digitText) = some (ds.foldl (fun n d => b * n + d) 0) := by
  have hne : ds.map digitText ≠ [] := by simpa using h0
  simp only [List.mem_cons, List.not_mem_nil, or_false, Prod.mk.injEq] at hb
  rcases hb with ⟨rfl, rfl⟩ | ⟨rfl, rfl⟩ | ⟨rfl, rfl⟩ <;> rw [← digits_digitText (by omega) hd]
  · refine number_decimal hne fun ch hc => ?_
    obtain ⟨d, hm, rfl⟩ := List.mem_map.1 hc
    exact digitText_decimal d (hd d hm)
  · exact number_hexadecimal hne
  · exact number_binary hne

/-! ### Lines of the mnemonics and pseudo-commands (R79, R80) -/

/-- The mnemonics and pseudo-commands of `commands`. -/
def mnemonics : List String :=
  ["NOP", "SRST", "KEYGEN", "LASTKEY", "ATK", "DDTALL", "RDSTATUS", "CNTDUMP", "PERM", "IPERM", "ENC", "DEC", "SUB",
    "ISUB", "RDCR", "CNTRD", "DDTROW", "WRCR", "DDTRD", "ATKCFG"]

theorem plain_of_mem_mnemonics {m : String} (h : m ∈ mnemonics) : Plain m.toList ∧ m.toList ≠ ".word".toList := by
  have hall : ∀ m ∈ mnemonics,
      (!m.toList.isEmpty && m.toList.all fun ch => !isBlank ch && ch != ',' && ch != ';') = true ∧
        m.toList ≠ ".word".toList := by decide
  exact ⟨plain_of_all (hall m h).1, (hall m h).2⟩

/-- A line gives the words of the commands its mnemonic and operands stand for. -/
theorem line_eq {m : String} {ops : List (List Char)} {r : Option (List Instr)} (hm : m ∈ mnemonics)
    (h : ∀ o ∈ ops, Plain o) (hc : commands m.toList ops = r) :
    assembleLine (commandLine m ops) = r.map fun is => is.map encode := by
  obtain ⟨hp, hw⟩ := plain_of_mem_mnemonics hm
  rw [assembleLine_commandLine hp hw h, hc]

/-- A line with one operand that is a number gives the words for its value, if it fits. -/
theorem line_number {m : String} {x : List Char} {n width : Nat} {f : BitVec width → List Instr} (hm : m ∈ mnemonics)
    (hx : number x = some n) (hc : commands m.toList [x] = with1 (operand width x) f) :
    assembleLine (commandLine m [x]) = wordsIfFits n f := by
  rw [line_eq hm (by simpa using number_plain hx) hc, with1_number hx]

/-- A line with two operands of which the second is a number gives the words for its value, if it fits and the first
operand is accepted. -/
theorem line_with2 {α : Type} {m : String} {x y : List Char} {a : Option α} {k width : Nat}
    {f : α → BitVec width → List Instr} (hm : m ∈ mnemonics) (hx : Plain x) (hy : number y = some k)
    (hc : commands m.toList [x, y] = with2 a (operand width y) f) :
    assembleLine (commandLine m [x, y]) = a.bind fun a => wordsIfFits k (f a) := by
  rw [line_eq hm (by simpa using ⟨hx, number_plain hy⟩) hc, with2_number hy]
  cases a <;> rfl

/-- `.word` with a plain operand gives the operand's word, if it is one (R79). -/
theorem line_word {x : List Char} (hx : Plain x) :
    assembleLine (commandLine ".word" [x]) = (operand 32 x).map fun w => [w] := by
  obtain ⟨hne, hch⟩ := hx
  have he : commandLine ".word" [x] = ".word".toList ++ ' ' :: x := by simp [commandLine]
  have hd : dropComment (".word".toList ++ ' ' :: x) = ".word".toList ++ ' ' :: x := by
    have hx : dropComment x = x := List.takeWhile_eq_self_iff.2 fun ch hc => by simpa using (hch ch hc).2.2
    exact congrArg (".word".toList ++ ' ' :: ·) hx
  have ht : trim (".word".toList ++ ' ' :: x) = ".word".toList ++ ' ' :: x := by
    refine trim_of_ends (fun ch hc => ?_) fun ch hc => ?_
    · obtain rfl : '.' = ch := by simpa using hc
      decide
    · rw [List.getLast?_append, List.getLast?_cons, List.getLast?_eq_some_getLast hne] at hc
      obtain rfl : x.getLast hne = ch := by simpa using hc
      exact (hch _ (List.getLast_mem hne)).1
  have h1 : (".word".toList ++ ' ' :: x).takeWhile (fun ch => !isBlank ch) = ".word".toList := rfl
  have h2 : (".word".toList ++ ' ' :: x).dropWhile (fun ch => !isBlank ch) = ' ' :: x := rfl
  have hs : splitCommas x = [x] := splitCommas_plain fun ch hc => (hch ch hc).2.1
  have hbody : ".word".toList ++ ' ' :: x ≠ [] := by simp
  simp only [assembleLine, he, hd, ht, h1, h2, trim_blank, trim_plain ⟨hne, hch⟩, hs, List.map_cons, List.map_nil,
    if_neg hne, if_neg hbody, if_true]

/-- `ATKCFG` gives its four writes where every operand fits (R80 d). -/
theorem line_atkcfg {x y z u : List Char} {dp du tm n : Nat} (hx : number x = some dp) (hy : number y = some du)
    (hz : number z = some tm) (hu : number u = some n) :
    assembleLine (commandLine "ATKCFG" [x, y, z, u]) =
      if dp < 2 ^ 16 ∧ du < 2 ^ 16 ∧ tm < 2 ^ 16 then
        wordsIfFits n (atkCfg (BitVec.ofNat 16 dp) (BitVec.ofNat 16 du) (BitVec.ofNat 16 tm))
      else none := by
  rw [line_eq (by decide) (by simp [number_plain hx, number_plain hy, number_plain hz, number_plain hu]) rfl]
  simp only [commands, if_true, operand_number hx, operand_number hy, operand_number hz, operand_number hu, wordsIfFits]
  by_cases hdp : dp < 2 ^ 16
  · by_cases hdu : du < 2 ^ 16
    · by_cases htm : tm < 2 ^ 16
      · by_cases hn : n < 2 ^ 16 <;>
          simp only [hdp, hdu, htm, hn, and_self, if_true, if_false, Option.map_some, Option.map_none]
      · simp only [hdp, hdu, htm, and_false, if_true, if_false, Option.map_none]
    · simp only [hdp, hdu, and_false, false_and, if_true, if_false, Option.map_none]
  · simp only [hdp, false_and, if_false, Option.map_none]

/-- The names of the registers and their indices (R82). -/
theorem register_name {name : String} {reg : Byte}
    (h : (name, reg) ∈ [("ID", 0), ("CAP", 1), ("STATUS", 2), ("DELTA_P", 3), ("TARGET_DU", 4), ("TMASK", 5),
      ("ITER", 6), ("BEST", 7), ("BESTCNT", 8)]) : Plain name.toList ∧ register name.toList = some reg := by
  simp only [List.mem_cons, List.not_mem_nil, or_false, Prod.mk.injEq] at h
  rcases h with ⟨rfl, rfl⟩ | ⟨rfl, rfl⟩ | ⟨rfl, rfl⟩ | ⟨rfl, rfl⟩ | ⟨rfl, rfl⟩ | ⟨rfl, rfl⟩ | ⟨rfl, rfl⟩ | ⟨rfl, rfl⟩ |
    ⟨rfl, rfl⟩ <;> exact ⟨plain_of_all (by decide), by decide⟩

/-! ### Lines of single mnemonics -/

theorem line_wrcr {x y : List Char} {k : Nat} (hx : Plain x) (hy : number y = some k) :
    assembleLine (commandLine "WRCR" [x, y]) =
      (register x).bind fun r => wordsIfFits k fun v => [.wrcr r v] :=
  line_with2 (by decide) hx hy rfl

theorem line_ddtrd {x y : List Char} {k : Nat} (hx : Plain x) (hy : number y = some k) :
    assembleLine (commandLine "DDTRD" [x, y]) =
      (operand 4 x).bind fun dx => wordsIfFits k fun dy => [.ddtrd dx dy] :=
  line_with2 (by decide) hx hy rfl

theorem line_rdcr {x : List Char} (hx : Plain x) :
    assembleLine (commandLine "RDCR" [x]) = (register x).map fun r => [encode (.rdcr r)] := by
  rw [line_eq (r := with1 (register x) fun r => [.rdcr r]) (by decide) (by simpa using hx) rfl]
  cases register x <;> rfl

theorem line_cntdump : assembleLine (commandLine "CNTDUMP" []) =
    some ((List.range 256).map fun k => encode (.cntrd (BitVec.ofNat 8 k))) := by
  rw [line_eq (r := some cntDump) (by decide) (by simp) rfl]
  simp only [cntDump, Option.map_some, List.map_map, Function.comp_def]

theorem line_ddtall : assembleLine (commandLine "DDTALL" []) =
    some (allNibbles.flatMap fun dx => allNibbles.map fun dy => encode (.ddtrd dx dy)) := by
  rw [line_eq (r := some ddtAll) (by decide) (by simp) rfl]
  simp only [ddtAll, ddtRow, Option.map_some, List.map_flatMap, List.map_map, Function.comp_def]

/-- Settles O60, one form of line at a time: each mnemonic's commands, with the values of operands that are numbers. -/
theorem linesStandForTheirWords : Obligations.LinesStandForTheirWords := by
  refine ⟨fun b pre hb ds h0 hd => number_digitText hb h0 hd, ?_,
    fun x n hx => ⟨?_, ?_, ?_, line_number (f := ddtRow) (by decide) hx rfl, ?_, fun y k hy => ⟨?_, ?_⟩⟩,
    fun name reg h => ?_, fun x y z u dp du tm n => line_atkcfg, line_ddtall, line_eq (by decide) (by simp) rfl,
    line_cntdump, assembleLine_comment⟩
  · simp only [List.mem_cons, List.not_mem_nil, or_false, Prod.mk.injEq]
    rintro m i (⟨rfl, rfl⟩ | ⟨rfl, rfl⟩ | ⟨rfl, rfl⟩ | ⟨rfl, rfl⟩ | ⟨rfl, rfl⟩) <;>
      exact line_eq (by decide) (by simp) rfl
  · simp only [List.mem_cons, List.not_mem_nil, or_false, Prod.mk.injEq]
    rintro m i (⟨rfl, rfl⟩ | ⟨rfl, rfl⟩ | ⟨rfl, rfl⟩ | ⟨rfl, rfl⟩) <;> exact line_number (by decide) hx rfl
  · simp only [List.mem_cons, List.not_mem_nil, or_false, Prod.mk.injEq]
    rintro m i (⟨rfl, rfl⟩ | ⟨rfl, rfl⟩) <;> exact line_number (by decide) hx rfl
  · simp only [List.mem_cons, List.not_mem_nil, or_false, Prod.mk.injEq]
    rintro m i (⟨rfl, rfl⟩ | ⟨rfl, rfl⟩)
    · exact line_number (by decide) hx (by rw [← register_number hx]; rfl)
    · exact line_number (by decide) hx rfl
  · refine (line_word (number_plain hx)).trans ?_
    rw [operand_number hx]
    split <;> rfl
  · refine (line_wrcr (number_plain hx) hy).trans ?_
    rw [register_number hx, operand_number hx]
    split <;> rfl
  · refine (line_ddtrd (number_plain hx) hy).trans ?_
    rw [operand_number hx]
    split <;> rfl
  · obtain ⟨hp, hr⟩ := register_name h
    exact ⟨(line_rdcr hp).trans (by rw [hr]; rfl), fun y k hy => (line_wrcr hp hy).trans (by rw [hr]; rfl)⟩

end Sys2Proof.Machine.Asm
end

section
/-!
The table commands and the cipher written out: `SINV` and `PINV` of a well-formed configuration (40_sbox_perm.md R101,
R104), the bits of `Permute` and `InvPermute` (R103, R104, R110), and what `SUB ISUB PERM IPERM ENC DEC` answer (R106 to
R109; 41_cipher.md R120 to R125).
-/

namespace Sys2Proof

/-- Only `a` itself passes a filter for the value an injective function has at `a`. -/
theorem filter_beq_of_injective {α β : Type} [BEq β] [LawfulBEq β] {l : List α} (hl : l.Nodup) (hm : ∀ x, x ∈ l)
    {f : α → β} (hf : Function.Injective f) (a : α) : (l.filter fun x => f x == f a) = [a] :=
  filter_eq_singleton hl hm fun x => by rw [beq_iff_eq, hf.eq_iff]

section
variable {c : Config} (hc : c.fault = false)
include hc

/-! ### The inverse tables (R101, R104) -/

theorem Config.bijective_of_no_fault : Function.Bijective c.sub ∧ Function.Bijective c.dest := by
  by_contra h
  exact Bool.false_ne_true (hc.symm.trans ((Machine.faultMeansATableIsNoBijection c).2 h))

theorem Config.bijective_sub : Function.Bijective c.sub := (bijective_of_no_fault hc).1

theorem Config.bijective_dest : Function.Bijective c.dest := (bijective_of_no_fault hc).2

theorem Config.subInv_sub (x : Nibble) : c.subInv (c.sub x) = x := by
  rw [subInv, filter_beq_of_injective nodup_allNibbles mem_allNibbles (bijective_sub hc).injective]

theorem Config.sub_subInv (y : Nibble) : c.sub (c.subInv y) = y := by
  obtain ⟨x, rfl⟩ := (bijective_sub hc).surjective y
  rw [subInv_sub hc]

theorem Config.sub_eq_iff {x y : Nibble} : c.sub x = y ↔ x = c.subInv y :=
  ⟨fun h => h ▸ (subInv_sub hc x).symm, fun h => h ▸ sub_subInv hc y⟩

theorem Config.pinv_dest (i : Fin 16) : c.pinv (c.dest i) = i := by
  rw [pinv, filter_beq_of_injective nodup_allBits mem_allBits (bijective_dest hc).injective]

theorem Config.dest_pinv (j : Fin 16) : c.dest (c.pinv j) = j := by
  obtain ⟨i, rfl⟩ := (bijective_dest hc).surjective j
  rw [pinv_dest hc]

theorem Config.bijective_pinv : Function.Bijective c.pinv :=
  Function.bijective_iff_has_inverse.2 ⟨c.dest, dest_pinv hc, pinv_dest hc⟩

/-! ### The bits of `Permute` and `InvPermute` (R103, R104) -/

theorem getLsbD_permute_dest (w : Word) (i : Fin 16) : (c.permute w).getLsbD (c.dest i).val = w.getLsbD i.val := by
  have hd : ∀ k, (c.dest k).val = (c.dest i).val ↔ k = i := fun k => by
    rw [Fin.val_inj, (Config.bijective_dest hc).injective.eq_iff]
  rw [getLsbD_permute _ _ (c.dest i).isLt, Bool.eq_iff_iff]
  simp [hd, mem_allBits]

/-- Bit `j` of `Permute(w)` is bit `PINV[j]` of `w`: the form of `getLsbD_invPermute` for the forward function. -/
theorem getLsbD_permute_pinv (w : Word) (j : Fin 16) : (c.permute w).getLsbD j.val = w.getLsbD (c.pinv j).val := by
  rw [← getLsbD_permute_dest hc w (c.pinv j), Config.dest_pinv hc]

theorem getLsbD_invPermute_pinv (v : Word) (j : Fin 16) :
    (c.invPermute v).getLsbD (c.pinv j).val = v.getLsbD j.val := by
  rw [getLsbD_invPermute, Config.dest_pinv hc]

end

/-- Reading the bits in another order leaves how many of them are 1. -/
theorem countP_allBits_comp {f : Fin 16 → Fin 16} (hf : Function.Bijective f) (p : Fin 16 → Bool) :
    (allBits.countP fun i => p (f i)) = allBits.countP p := by
  have hperm : (allBits.map f).Perm allBits := by
    refine (List.perm_ext_iff_of_nodup (nodup_allBits.map hf.injective) nodup_allBits).2 fun j => ?_
    obtain ⟨i, rfl⟩ := hf.surjective j
    simp [mem_allBits]
  rw [← hperm.countP_eq p, List.countP_map]
  rfl

namespace Machine

/-! ### The tables and functions of a well-formed configuration (R102, R110) -/

theorem nib_invSubWord (c : Config) (w : Word) {k : Nat} (hk : k < 4) :
    nib (c.invSubWord w) k = c.subInv (nib w k) := by
  obtain ⟨h3, h2, h1, h0⟩ :=
    nib_joinNibbles (c.subInv (nib w 3)) (c.subInv (nib w 2)) (c.subInv (nib w 1)) (c.subInv (nib w 0))
  unfold Config.invSubWord
  interval_cases k <;> assumption

/-- Settles O17: the tables invert nibble by nibble, so the words do, and `Permute` and `InvPermute` bit by bit. -/
theorem tablesAndTheirInversesCancel : Obligations.TablesAndTheirInversesCancel := by
  intro c hc
  refine ⟨Config.subInv_sub hc, Config.sub_subInv hc, fun w => word_eq_iff_nibs.2 fun k hk => ?_,
    fun w => word_eq_iff_nibs.2 fun k hk => ?_, fun w => word_ext fun i => ?_, fun w => word_ext fun j => ?_⟩
  · rw [nib_invSubWord c _ hk, nib_subWord c _ hk, Config.subInv_sub hc]
  · rw [nib_subWord c _ hk, nib_invSubWord c _ hk, Config.sub_subInv hc]
  · rw [getLsbD_invPermute, getLsbD_permute_dest hc]
  · rw [getLsbD_permute_pinv hc, getLsbD_invPermute_pinv hc]

/-- Settles O18: each bit of the answer is one bit of the operand, read through the bijection `PINV` or `PERM`. -/
theorem permuteIsLinearAndKeepsPopcount : Obligations.PermuteIsLinearAndKeepsPopcount := by
  intro c hc
  have hp := getLsbD_permute_pinv hc
  refine ⟨fun a b => word_ext fun j => ?_, fun a b => word_ext fun i => ?_, fun w => ?_, fun w => ?_,
    word_ext fun j => ?_, word_ext fun j => ?_⟩
  · simp only [hp, BitVec.getLsbD_xor]
  · simp only [getLsbD_invPermute, BitVec.getLsbD_xor]
  · simp only [hp]
    exact countP_allBits_comp (Config.bijective_pinv hc) fun i => w.getLsbD i.val
  · simp only [getLsbD_invPermute]
    exact countP_allBits_comp (Config.bijective_dest hc) fun i => w.getLsbD i.val
  · simp only [hp, BitVec.ofNat_eq_ofNat, BitVec.getLsbD_zero]
  · have hones : ∀ i : Fin 16, (0xFFFF : Word).getLsbD i.val = true := by decide
    rw [hp, hones, hones]

/-! ### The commands -/

theorem State.answerTable_of_cf {s : State} (h : s.cf = false) (d : Word) : s.answerTable d = s.respond d := by
  rcases s.answerTable_cases d with ⟨ht, -⟩ | ⟨-, he⟩
  · exact absurd (h.symm.trans ht) Bool.false_ne_true
  · exact he

/-- A table command that answers a nibble shows it with zeros above it (R76, R106, R107). -/
theorem State.answerTable_nibble {s : State} (h : s.cf = false) (v : Nibble) :
    s.answerTable (zext16 v) = { s with fsm := .rsp, rspreg := (0 : BitVec 28) ++ v } := by
  rw [State.answerTable_of_cf h, State.respond, okResponse_zext16_nibble]

/-- Settles O13. -/
theorem subAnswersTheTableEntry : Obligations.SubAnswersTheTableEntry := fun _ _ hcf =>
  congrArg Host.Outcome.next (State.answerTable_nibble hcf _)

/-- Settles O14: a bijective `SBOX` has exactly one entry for the operand, and `SINV` finds it. -/
theorem isubAnswersTheUniquePreimage : Obligations.IsubAnswersTheUniquePreimage := fun _ _ hcf hc =>
  ⟨fun _ => Config.sub_eq_iff hc, congrArg Host.Outcome.next (State.answerTable_nibble hcf _)⟩

/-- Settles O15: a bijective `PERM` sends no other bit to the same destination. -/
theorem permMovesEveryBitToItsDestination : Obligations.PermMovesEveryBitToItsDestination := fun _ w hcf hc =>
  ⟨getLsbD_permute_dest hc w, congrArg Host.Outcome.next (State.answerTable_of_cf hcf _)⟩

/-- Settles O16: `InvPermute` reads bit `PERM[i]`, and `PERM[PINV[j]] = j`. -/
theorem ipermMovesEveryBitBack : Obligations.IpermMovesEveryBitBack := fun _ v hcf hc =>
  ⟨Config.pinv_dest hc, getLsbD_invPermute_pinv hc v, congrArg Host.Outcome.next (State.answerTable_of_cf hcf _)⟩

theorem exec_enc_of_keys {s : State} (hcf : s.cf = false) (hkv : s.kv = true) (w : Word) :
    exec (.enc w) s = .next (s.respond (s.cfg.enc s.keys w)) := by
  simp [exec, execEnc, hcf, hkv]

theorem exec_dec_of_keys {s : State} (hcf : s.cf = false) (hkv : s.kv = true) (w : Word) :
    exec (.dec w) s = .next (s.respond (s.cfg.dec s.keys w)) := by
  simp [exec, execDec, hcf, hkv]

/-- Settles O21: the folds over the round keys, unrolled, are the cipher and its inverse. -/
theorem encAndDecAnswerTheUnrolledCipher : Obligations.EncAndDecAnswerTheUnrolledCipher :=
  ⟨fun c w _ hk => ⟨nib_subWord c w hk, nib_invSubWord c w hk⟩,
    fun _ w hcf hkv => ⟨exec_enc_of_keys hcf hkv w, exec_dec_of_keys hcf hkv w⟩⟩

end Machine

end Sys2Proof
end


section
/-!
The cipher and its keys (41_cipher.md): decryption against encryption (R122), what `KEYGEN` loads (R123) and what `LASTKEY`
answers (R126).
-/

namespace Sys2Proof

/-! ### The round trip (R122) -/

section
variable {c : Config} (hc : c.fault = false) (k : Vector Word 5)
include hc

/-- `Dec` walks back through the steps of `Enc`, last step first. -/
theorem Config.dec_enc (p : Word) : c.dec k (c.enc k p) = p := by
  obtain ⟨-, -, hsub, -, hperm, -⟩ := Machine.tablesAndTheirInversesCancel c hc
  simp only [dec, enc, List.foldl, BitVec.xor_assoc, BitVec.xor_self, BitVec.xor_zero, hsub, hperm]

theorem Config.enc_dec (x : Word) : c.enc k (c.dec k x) = x := by
  obtain ⟨-, -, -, hsub, -, hperm⟩ := Machine.tablesAndTheirInversesCancel c hc
  simp only [dec, enc, List.foldl, BitVec.xor_assoc, BitVec.xor_self, BitVec.xor_zero, hsub, hperm]

end

namespace Machine

/-- Settles O22: the cipher has `Dec` as its two-sided inverse. -/
theorem cipherRoundTrip : Obligations.CipherRoundTrip := fun _ k hc =>
  ⟨Config.dec_enc hc k, Config.enc_dec hc k,
    Function.bijective_iff_has_inverse.2 ⟨_, Config.dec_enc hc k, Config.enc_dec hc k⟩⟩

/-! ### `KEYGEN` (R123) -/

/-- Five values put into the key registers from `K[0]` on replace all of them, in order. -/
theorem State.putKeys_keygenStart (s : State) (ks : Vector Word 5) :
    s.keygenStart.putKeys ks.toList = { s with keys := ks, work := { s.work with kidx := 5 } } := by
  have hl : ks.toList = [ks[0], ks[1], ks[2], ks[3], ks[4]] := by
    refine List.ext_getElem (by simp) fun i h _ => ?_
    rw [Vector.length_toList] at h
    interval_cases i <;> rfl
  have hk : ((((s.keys.setIfInBounds 0 ks[0]).setIfInBounds 1 ks[1]).setIfInBounds 2 ks[2]).setIfInBounds 3
      ks[3]).setIfInBounds 4 ks[4] = ks := by
    refine Vector.ext fun i hi => ?_
    interval_cases i <;> simp
  simp [hl, State.putKeys, State.putKey, hk]

/-- Settles O23: the loop puts the five values the RNG gives into the key registers, then ends. -/
theorem keygenLoadsTheNextFiveDraws : Obligations.KeygenLoadsTheNextFiveDraws := by
  intro s ks hcf hp
  have hg : s.keygenStart.env.rng.Gives ks.toList := fun k hk => by
    simpa using hp ⟨k, by simpa using hk⟩
  have hl := State.keygenLoop_gives hg 0
  rw [Vector.length_toList, Nat.add_zero, State.putKeys_keygenStart] at hl
  rw [exec_keygen_of_accepted (by rw [refusalOf_keygen, hcf]; rfl), hl]
  rfl

/-! ### `LASTKEY` (R126) -/

theorem exec_lastkey_of_keys {s : State} (hcf : s.cf = false) (hd : s.cfg.diagEn = true) (hkv : s.kv = true) :
    exec .lastkey s = .next (s.respond s.keys[4]) := by
  simp [exec, execLastkey, hcf, hd, hkv]

/-- Settles O24: the response word is the key with zeros above it (R76). -/
theorem lastkeyAnswersTheLastSubkey : Obligations.LastkeyAnswersTheLastSubkey :=
  fun _ hcf hd hkv => exec_lastkey_of_keys hcf hd hkv

end Machine

end Sys2Proof
end

section
/-!
The difference distribution table (42_ddt.md): the count `DDTRD` answers (R140, R143), and the sums, the first row and
the parity of the table (R141).
-/

namespace Sys2Proof

/-! ### Counting over all nibbles -/

/-- Counting over all nibbles is the cardinality over the sixteen indices. -/
theorem countP_allNibbles_eq_card (p : Nibble → Prop) [DecidablePred p] :
    (allNibbles.countP fun x => p x) = (Finset.univ.filter fun x : Fin 16 => p (BitVec.ofFin x)).card := by
  have hl : allNibbles = (List.finRange 16).map BitVec.ofFin := by decide
  rw [hl, List.countP_map, List.countP_eq_length_filter]
  rfl

/-- One for each element that passes adds up to their count. -/
theorem sum_map_ite_one {α : Type} (p : α → Bool) (l : List α) :
    (l.map fun a => if p a then 1 else 0).sum = l.countP p := by
  induction l with
  | nil => rfl
  | cons a l ih => rw [List.map_cons, List.sum_cons, ih, List.countP_cons, Nat.add_comm]

/-- Double counting: where every `b` has exactly one `a` in `l` related to it, the counts per `a` sum to the number of
the `b`. -/
theorem sum_map_countP_eq_length {α β : Type} {l : List α} {r : α → β → Bool}
    (h : ∀ b, (l.countP fun a => r a b) = 1) (m : List β) : (l.map fun a => m.countP (r a)).sum = m.length := by
  induction m with
  | nil => simp
  | cons b m ih => simp only [List.countP_cons, List.sum_map_add, ih, sum_map_ite_one, h, List.length_cons]

theorem countP_allNibbles_eq_one {p : Nibble → Bool} {a : Nibble} (h : ∀ x, p x = true ↔ x = a) :
    allNibbles.countP p = 1 := by
  rw [List.countP_eq_length_filter, filter_eq_singleton nodup_allNibbles mem_allNibbles h, List.length_singleton]

theorem bijective_xor (a : Nibble) : Function.Bijective (a ^^^ ·) :=
  Function.Involutive.bijective fun x => by simp only [← BitVec.xor_assoc, BitVec.xor_self, BitVec.zero_xor]

theorem xor_eq_self {x d : Nibble} : x ^^^ d = x ↔ d = 0 := by
  have h : x ^^^ d = x ^^^ 0#4 ↔ d = 0 := BitVec.xor_right_inj x
  rwa [BitVec.xor_zero] at h

theorem xor_xor_self (x d : Nibble) : x ^^^ d ^^^ d = x := by
  rw [BitVec.xor_assoc, BitVec.xor_self, BitVec.xor_zero]

/-- What holds of `x ^ d` where it holds of `x` holds of an even number of nibbles: `d ≠ 0` pairs them off. -/
theorem even_countP_allNibbles {d : Nibble} (h : d ≠ 0) {p : Nibble → Prop} [DecidablePred p]
    (hp : ∀ x, p x → p (x ^^^ d)) : Even (allNibbles.countP fun x => p x) := by
  rw [countP_allNibbles_eq_card, ← ZMod.natCast_eq_zero_iff_even, Finset.cast_card]
  refine Finset.sum_involution (fun x _ => (BitVec.ofFin x ^^^ d).toFin) (fun _ _ => by decide)
    (fun x _ _ he => h (xor_eq_self.1 (congrArg BitVec.ofFin he))) (fun x hx => ?_)
    (fun x _ => congrArg BitVec.toFin (xor_xor_self (.ofFin x) d))
  exact Finset.mem_filter.2 ⟨Finset.mem_univ _, hp _ (Finset.mem_filter.1 hx).2⟩

/-! ### The table (R141) -/

namespace Config

variable (c : Config)

theorem ddt_eq_card (dx dy : Nibble) : c.ddt dx dy = (Finset.univ.filter fun x : Fin 16 =>
    c.sub (BitVec.ofFin x) ^^^ c.sub (BitVec.ofFin x ^^^ dx) = dy).card :=
  countP_allNibbles_eq_card fun x => c.sub x ^^^ c.sub (x ^^^ dx) = dy

theorem ddt_le (dx dy : Nibble) : c.ddt dx dy ≤ 16 := List.countP_le_length

/-- Each input adds 1 to the one entry of the row that its output difference names. -/
theorem ddt_row_sum (dx : Nibble) : (allNibbles.map (c.ddt dx)).sum = 16 :=
  sum_map_countP_eq_length (fun _ => countP_allNibbles_eq_one fun _ => beq_iff_eq.trans eq_comm) allNibbles

/-- Without an input difference there is no output difference. -/
theorem ddt_zero (dy : Nibble) : c.ddt 0 dy = if dy = 0 then 16 else 0 := by
  have h : c.ddt 0 dy = allNibbles.countP fun _ => (0 : Nibble) == dy := by simp [ddt]
  rw [h]
  split
  · next h0 => subst h0; rfl
  · next h0 => exact List.countP_eq_zero.2 fun _ _ h => h0 (beq_iff_eq.1 h).symm

/-- `x` and `x ^ dx` give the same output difference, and they are two inputs. -/
theorem ddt_even_of_ne {dx : Nibble} (h : dx ≠ 0) (dy : Nibble) : Even (c.ddt dx dy) :=
  even_countP_allNibbles h fun x hx => by rwa [xor_xor_self, BitVec.xor_comm]

theorem ddt_even (dx dy : Nibble) : Even (c.ddt dx dy) := by
  by_cases h : dx = 0
  · rw [h, ddt_zero]
    split <;> decide
  · exact c.ddt_even_of_ne h dy

section
variable {c} (hs : Function.Bijective c.sub)
include hs

/-- A bijective `SBOX` gives two different inputs different outputs. -/
theorem ddt_column_zero {dx : Nibble} (h : dx ≠ 0) : c.ddt dx 0 = 0 :=
  List.countP_eq_zero.2 fun x _ hx => by
    have hx : c.sub x = c.sub (x ^^^ dx) := BitVec.xor_eq_zero_iff.1 (beq_iff_eq.1 hx)
    exact h (xor_eq_self.1 (hs.injective hx).symm)

/-- For each input `x` exactly one `dx` gives the output difference `dy`: the one that leads to the output
`Sub(x) ^ dy`. -/
theorem ddt_column_sum (dy : Nibble) : (allNibbles.map fun dx => c.ddt dx dy).sum = 16 := by
  refine sum_map_countP_eq_length (fun x => ?_) allNibbles
  have hf : Function.Bijective fun dx => c.sub x ^^^ c.sub (x ^^^ dx) :=
    (bijective_xor _).comp (hs.comp (bijective_xor x))
  obtain ⟨d, hd⟩ := hf.surjective dy
  exact countP_allNibbles_eq_one fun dx => by rw [beq_iff_eq, ← hd, hf.injective.eq_iff]

end

end Config

namespace Machine

/-- Settles O20: the sums by counting each input once, the parity by pairing `x` with `x ^ dx`. -/
theorem ddtRowsAndColumns : Obligations.DdtRowsAndColumns := fun c =>
  ⟨c.ddt_row_sum, c.ddt_zero 0, fun dy h => (c.ddt_zero dy).trans (if_neg h),
    fun dx dy => Nat.even_iff.1 (c.ddt_even dx dy),
    fun hs => ⟨fun _ => Config.ddt_column_zero hs, Config.ddt_column_sum hs⟩⟩

/-! ### `DDTRD` (R143) -/

/-- Settles O19: a count is at most 16, so 16 bits hold it. -/
theorem ddtrdAnswersTheDifferenceCount : Obligations.DdtrdAnswersTheDifferenceCount := fun s dx dy hcf =>
  ⟨BitVec.ofNat 16 (s.cfg.ddt dx dy), by
    rw [BitVec.toNat_ofNat, Nat.mod_eq_of_lt ((s.cfg.ddt_le dx dy).trans_lt (by decide)), Config.ddt_eq_card],
    congrArg Host.Outcome.next (State.answerTable_of_cf hcf _)⟩

end Machine

end Sys2Proof
end

section
/-!
Targeted positions and matching (43_attack.md R156 to R159): the filter mask nibble by nibble, when a candidate matches,
why the true key matches a right pair (R184), and the corner cases of the inputs (R183).
-/

namespace Sys2Proof.Machine

/-! ### Targeted positions and the filter mask (R156) -/

/-- A legal mask names its two targeted positions and no other. -/
theorem getLsbD_legalTmask : ∀ {m : BitVec 4}, legalTmask m = true → ∀ k < 4,
    (m.getLsbD k = true ↔ k = lowPos m ∨ k = highPos m) := by decide

theorem nib_fmask (m : BitVec 4) {k : Nat} (hk : k < 4) : nib (fmask m) k = if m.getLsbD k then 0x0 else 0xF := by
  obtain ⟨h3, h2, h1, h0⟩ :=
    nib_joinNibbles (fmaskNibble m 3) (fmaskNibble m 2) (fmaskNibble m 1) (fmaskNibble m 0)
  unfold fmask
  interval_cases k <;> assumption

/-- Settles O29: the positions of each legal mask, the mask nibble by nibble, and the six rows. -/
theorem targetedPositionsAndFilterMask : Obligations.TargetedPositionsAndFilterMask := by
  refine ⟨fun m hm => ?_, fun m k hk => nib_fmask m hk, by decide, by decide, by decide, by decide, by decide,
    by decide⟩
  obtain ⟨hlt, hh⟩ := positions_lt hm
  have hbit := getLsbD_legalTmask hm
  refine ⟨hlt, (hbit _ (by omega)).2 (.inl rfl), (hbit _ hh).2 (.inr rfl), fun k hk hkl hkh => ?_⟩
  rw [Bool.eq_false_iff, Ne, hbit k hk, not_or]
  exact ⟨hkl, hkh⟩

section
variable {m : BitVec 4} (hm : legalTmask m = true)
include hm

/-- A word passes the filter mask when it is zero at the excluded positions. -/
theorem and_fmask_eq_zero_iff (w : Word) :
    w &&& fmask m = 0 ↔ ∀ k < 4, k ≠ lowPos m → k ≠ highPos m → nib w k = 0 := by
  rw [word_eq_iff_nibs]
  refine forall₂_congr fun k hk => ?_
  have hbit := getLsbD_legalTmask hm k hk
  rw [nib_and, nib_fmask m hk, nib_zero]
  split
  · next ht =>
    obtain rfl | rfl := hbit.1 ht <;> simp
  · next hf =>
    obtain ⟨hl, hh⟩ := not_or.1 (mt hbit.2 hf)
    have hones : nib w k &&& 0xF = nib w k := BitVec.and_allOnes
    simp only [hones, hl, hh, ne_eq, not_false_eq_true, forall_true_left]

/-- Two words are equal when they are at the two targeted positions and at the excluded ones. -/
theorem word_eq_iff_positions {a b : Word} :
    a = b ↔ nib a (highPos m) = nib b (highPos m) ∧ nib a (lowPos m) = nib b (lowPos m) ∧
      ∀ k < 4, k ≠ lowPos m → k ≠ highPos m → nib a k = nib b k := by
  obtain ⟨hlt, hh⟩ := positions_lt hm
  constructor
  · rintro rfl
    exact ⟨rfl, rfl, fun _ _ _ _ => rfl⟩
  · rintro ⟨eh, el, ex⟩
    refine word_eq_iff_nibs.2 fun k hk => ?_
    by_cases hkl : k = lowPos m
    · rw [hkl, el]
    by_cases hkh : k = highPos m
    · rw [hkh, eh]
    exact ex k hk hkl hkh

end

/-! ### Matching (R157, R158, R184) -/

/-- Settles O30: both sides compare the partial difference with the target position by position. -/
theorem matchIsDecidedNibbleByNibble : Obligations.MatchIsDecidedNibbleByNibble := by
  intro inv m c1 c2 target x hm
  obtain ⟨hhigh, hlow, hex⟩ := nib_partialDiff inv hm c1 c2 x
  rw [word_eq_iff_positions hm, and_fmask_eq_zero_iff hm, hhigh, hlow]
  constructor
  · rintro ⟨eh, el, ex⟩
    exact ⟨fun k hk hkl hkh => by rw [← ex k hk hkl hkh, hex k hk hkl hkh], eh, el⟩
  · rintro ⟨ex, eh, el⟩
    exact ⟨eh, el, fun k hk hkl hkh => by rw [ex k hk hkl hkh, hex k hk hkl hkh]⟩

/-- Equal ciphertexts have no partial difference. -/
theorem partialDiff_self (inv : Nibble → Nibble) {m : BitVec 4} (hm : legalTmask m = true) (c : Word) (x : Byte) :
    partialDiff inv m c c x = 0 := by
  have hd (v : Nibble) (k : Nat) : v ^^^ v = nib 0 k := BitVec.xor_self.trans (nib_zero k).symm
  exact (matchIsDecidedNibbleByNibble _ _ _ _ _ _ hm).2 ⟨BitVec.zero_and, hd _ _, hd _ _⟩

/-- With the right key nibble, partial decryption gives back the input of the S-box. -/
theorem subInv_of_true_key {c : Config} (hc : c.fault = false) (u k4 : Word) {k : Nat} (hk : k < 4) :
    c.subInv (nib (c.subWord u ^^^ k4) k ^^^ nib k4 k) = nib u k := by
  rw [nib_xor, BitVec.xor_assoc, BitVec.xor_self, BitVec.xor_zero, nib_subWord c u hk, Config.subInv_sub hc]

/-- Settles O32: at the targeted positions the S-box is undone, and elsewhere a right pair does not differ. -/
theorem trueKeyMatchesARightPair : Obligations.TrueKeyMatchesARightPair := by
  intro c m k4 u1 u2 hc hm hp
  obtain ⟨hlt, hh⟩ := positions_lt hm
  refine (matchIsDecidedNibbleByNibble _ _ _ _ _ _ hm).2 ⟨hp, ?_, ?_⟩
  · rw [truth, high_nibble_append, subInv_of_true_key hc _ _ hh, subInv_of_true_key hc _ _ hh, nib_xor]
  · have hl : lowPos m < 4 := by omega
    rw [truth, low_nibble_append, subInv_of_true_key hc _ _ hl, subInv_of_true_key hc _ _ hl, nib_xor]

/-! ### The arg-max (R161) -/

/-- The arg-max is the lowest candidate with the highest count. -/
theorem argMax_spec (t : Counters) :
    (∀ i : Fin 256, t[i] ≤ (argMax t).2) ∧ t[(argMax t).1.toNat]'(argMax t).1.isLt = (argMax t).2 ∧
      ∀ i : Fin 256, i.val < (argMax t).1.toNat → t[i] < (argMax t).2 := by
  obtain ⟨hup, hat, hlow⟩ := ScanInv.take t (le_refl 256)
  rw [← argMax_eq_take] at hup hat hlow
  refine ⟨fun i => hup i i.isLt, ?_, hlow⟩
  rcases hat with hat | h0
  · exact hat
  · have hle : t[0] ≤ (argMax t).2 := hup 0 (by decide)
    simp only [h0] at hle ⊢
    exact BitVec.le_zero_iff.1 hle

/-- Where all candidates have the same count, the arg-max is candidate 0 (R161, R183 a, b). -/
theorem argMax_of_const {t : Counters} {v : Word} (h : ∀ i : Fin 256, t[i] = v) : argMax t = (0, v) := by
  obtain ⟨-, hat, hlow⟩ := argMax_spec t
  have hv : v = (argMax t).2 := (h ⟨_, (argMax t).1.isLt⟩).symm.trans hat
  have h0 : ¬ 0 < (argMax t).1.toNat := fun hpos => by
    have := hlow 0 hpos
    rw [h 0, ← hv] at this
    exact BitVec.lt_irrefl _ this
  exact Prod.ext (BitVec.eq_of_toNat_eq (by simpa using h0)) hv.symm

/-! ### The corner cases (R183) -/

section
variable (x : AttackIn)

/-- Where no pair counts for any candidate, no counter moves. -/
theorem AttackIn.run_eq_zero {rs : List Word} (h : ∀ r cand, x.counts r cand = false) : x.run rs = zeroCounters :=
  counters_ext fun i => by
    rw [x.run_get, List.countP_eq_zero.2 (fun r _ => by simp [h]), zeroCounters_get]
    rfl

/-- A candidate counts for a pair that passes the filter and whose partial difference is the target (R159). -/
theorem AttackIn.counts_iff (r : Word) (cand : Byte) :
    x.counts r cand = true ↔
      (x.enc r ^^^ x.enc (x.p2 r)) &&& fmask x.tmask = 0 ∧
        partialDiff x.inv x.tmask (x.enc r) (x.enc (x.p2 r)) cand = x.targetDu := by
  simp [AttackIn.counts, passesFilter, AttackIn.isMatch]

variable {x} (hm : legalTmask x.tmask = true)
include hm

/-- The pair of equal plaintexts counts for every candidate or for none, as the target is zero or not. -/
theorem AttackIn.counts_of_deltaP_zero (hd : x.deltaP = 0) (r : Word) (cand : Byte) :
    x.counts r cand = true ↔ x.targetDu = 0 := by
  have hp : x.p2 r = r := by rw [AttackIn.p2, hd, BitVec.ofNat_eq_ofNat, BitVec.xor_zero]
  rw [x.counts_iff, hp, partialDiff_self _ hm, BitVec.xor_self]
  exact ⟨fun h => h.2.symm, fun h => ⟨BitVec.zero_and, h.symm⟩⟩

/-- Only equal ciphertexts pass the filter and have no partial difference, if the S-box inverse is injective. -/
theorem AttackIn.enc_eq_of_counts (ht : x.targetDu = 0) (hi : Function.Injective x.inv) {r : Word} {cand : Byte}
    (h : x.counts r cand = true) : x.enc r = x.enc (x.p2 r) := by
  obtain ⟨hf, hp⟩ := (x.counts_iff r cand).1 h
  obtain ⟨-, hhigh, hlow⟩ := (matchIsDecidedNibbleByNibble _ _ _ _ _ _ hm).1 hp
  rw [ht, nib_zero] at hhigh hlow
  refine (word_eq_iff_positions hm).2 ⟨?_, ?_, fun k hk hkl hkh => ?_⟩
  · exact (BitVec.xor_left_inj _).1 (hi (BitVec.xor_eq_zero_iff.1 hhigh))
  · exact (BitVec.xor_left_inj _).1 (hi (BitVec.xor_eq_zero_iff.1 hlow))
  · have := (and_fmask_eq_zero_iff hm _).1 hf k hk hkl hkh
    rw [nib_xor] at this
    exact BitVec.xor_eq_zero_iff.1 this

end

/-- Settles O31: in each case every drawn pair counts for every candidate, or none counts for any. -/
theorem attackCornerCases : Obligations.AttackCornerCases := by
  intro x rs hm
  refine ⟨⟨rfl, argMax_of_const zeroCounters_get⟩, fun hd ht hn => ?_, fun hd ht => ?_, fun ht => ?_,
    fun ht hd he hi => ?_⟩
  · have hall (i : Fin 256) : (x.run rs)[i] = BitVec.ofNat 16 rs.length := by
      rw [x.run_get, List.countP_eq_length.2 fun r _ => (AttackIn.counts_of_deltaP_zero hm hd r _).2 ht]
    refine ⟨fun i => ?_, by rw [argMax_of_const hall]⟩
    rw [hall, BitVec.toNat_ofNat, Nat.mod_eq_of_lt hn]
  · refine x.run_eq_zero fun r cand => ?_
    rw [Bool.eq_false_iff, Ne, AttackIn.counts_of_deltaP_zero hm hd]
    exact ht
  · refine x.run_eq_zero fun r cand => Bool.eq_false_iff.2 fun h => ?_
    obtain ⟨-, hp⟩ := (x.counts_iff r cand).1 h
    exact ht ((matchIsDecidedNibbleByNibble _ _ _ _ _ _ hm).1 hp).1
  · refine x.run_eq_zero fun r cand => Bool.eq_false_iff.2 fun h => hd ?_
    have hr : r ^^^ 0#16 = r ^^^ x.deltaP := BitVec.xor_zero.trans (he (AttackIn.enc_eq_of_counts hm ht hi h))
    exact ((BitVec.xor_right_inj r).1 hr).symm

end Sys2Proof.Machine
end

section
/-!
The commands `ATK` and `CNTRD` (43_attack.md R158 to R164): what a completed `ATK` leaves, that no counter overflows
(R180), that the keys act through the oracle only (R164), and what `CNTRD` answers.
-/

namespace Sys2Proof.Machine

/-! ### Completed runs (R160 to R162, R180) -/

/-- The state in which an `ATK` begun in `s` ends when `rs` are the values drawn, one for each iteration. -/
def State.atkDone (s : State) (rs : List Word) : State :=
  { s with
    cnt := s.attackIn.run rs, best := (argMax (s.attackIn.run rs)).1, bestCnt := (argMax (s.attackIn.run rs)).2
    av := true, fsm := .rsp, rspreg := (0 : BitVec 24) ++ (argMax (s.attackIn.run rs)).1
    work := { s.work with it := s.iter }
    env := { s.env with rng := s.env.rng.after s.iter.toNat } }

theorem State.atkFinish_eq_atkDone {s : State} {rs : List Word} (hn : rs.length = s.iter.toNat) :
    ((s.atkClear.atkIterates rs).setRng (s.env.rng.after s.iter.toNat)).atkFinish = s.atkDone rs := by
  have hit : s.atkClear.work.it + BitVec.ofNat 16 rs.length = s.iter := by
    rw [hn, BitVec.ofNat_toNat, BitVec.setWidth_eq]
    exact BitVec.zero_add _
  rw [State.atkIterates_eq, hit, State.atkDone, ← okResponse_zext16_byte]
  rfl

theorem exec_atk_of_keys {s : State} (hcf : s.cf = false) (hkv : s.kv = true) :
    exec .atk s = .next (s.atkClear.atkLoop s.iter.toNat) :=
  (exec_atk_of_accepted (by rw [refusalOf_atk, hcf, hkv]; rfl)).2

/-- On as many values as iterations `ATK` completes. -/
theorem exec_atk_of_gives {s : State} {rs : List Word} (hcf : s.cf = false) (hkv : s.kv = true)
    (hn : rs.length = s.iter.toNat) (hg : s.env.rng.Gives rs) : exec .atk s = .next (s.atkDone rs) := by
  have hl := State.atkLoop_gives (s := s.atkClear) hg 0
  rw [Nat.add_zero, hn] at hl
  rw [exec_atk_of_keys hcf hkv, hl, ← State.atkFinish_eq_atkDone hn]
  rfl

/-- An `ATK` that comes to its answer has drawn as many values as iterations. -/
theorem atkDone_of_exec_atk {s t : State} (hcf : s.cf = false) (hkv : s.kv = true) (h : exec .atk s = .next t)
    (hf : t.fsm = .rsp) : ∃ rs : List Word, rs.length = s.iter.toNat ∧ t = s.atkDone rs := by
  rw [exec_atk_of_keys hcf hkv] at h
  cases h
  rcases s.atkClear.atkLoop_cases s.iter.toNat with ⟨rs, hn, -, h⟩ | ⟨rs, -, -, -, -, h⟩
  · exact ⟨rs, hn, h.trans (State.atkFinish_eq_atkDone hn)⟩
  · rw [h] at hf
    cases hf

/-- A counter of a run short enough not to overflow is the number of drawn values that count (R180). -/
theorem AttackIn.toNat_run_get (x : AttackIn) {rs : List Word} (hn : rs.length < 2 ^ 16) (i : Fin 256) :
    ((x.run rs)[i]).toNat = rs.countP fun r => x.counts r (BitVec.ofFin i) := by
  rw [x.run_get, BitVec.toNat_ofNat, Nat.mod_eq_of_lt (List.countP_le_length.trans_lt hn)]

/-- Settles O25: the loop runs on the values the RNG gives, and the scan finds the arg-max. -/
theorem atkCountsMatchingPairsAndAnswersArgMax : Obligations.AtkCountsMatchingPairsAndAnswersArgMax := by
  intro s rs hcf hkv hn hg
  obtain ⟨hup, hat, hlow⟩ := argMax_spec (s.attackIn.run rs)
  exact ⟨s.atkDone rs, exec_atk_of_gives hcf hkv hn hg, s.attackIn.toNat_run_get (hn ▸ s.iter.isLt), hup, hat, hlow,
    rfl⟩

/-- Settles O26: a counter counts some of the drawn values. -/
theorem countersNeverExceedIterations : Obligations.CountersNeverExceedIterations := by
  intro s t hcf hkv h hf i
  obtain ⟨rs, hn, rfl⟩ := atkDone_of_exec_atk hcf hkv h hf
  rw [← hn]
  exact (s.attackIn.toNat_run_get (hn ▸ s.iter.isLt) i).trans_le List.countP_le_length

/-! ### The oracle (R164) -/

theorem State.raise_withKeys (s : State) (k : Vector Word 5) (e : Cause) :
    (s.withKeys k).raise e = (s.raise e).withKeys k := by cases e <;> rfl

/-- With the same oracle the attack has the same inputs. -/
theorem State.attackIn_withKeys {s : State} {k : Vector Word 5} (h : ∀ p, s.cfg.enc k p = s.cfg.enc s.keys p) :
    (s.withKeys k).attackIn = s.attackIn :=
  congrArg (fun enc => { s.attackIn with enc }) (funext h)

/-- With the same oracle the loop of `ATK` does the same. -/
theorem State.atkLoop_withKeys (n : Nat) {s : State} {k : Vector Word 5}
    (h : ∀ p, s.cfg.enc k p = s.cfg.enc s.keys p) : (s.withKeys k).atkLoop n = (s.atkLoop n).withKeys k := by
  induction n generalizing s with
  | zero => rfl
  | succ n ih =>
    rcases s.draw_cases with ⟨hp, -, -⟩ | ⟨r, hp, hd⟩
    · rw [State.atkLoop_silent hp, State.atkLoop_silent (by exact hp)]
      rfl
    · have hi : ((s.withKeys k).drawn 1).atkIterate r = ((s.drawn 1).atkIterate r).withKeys k :=
        congrArg (fun x : AttackIn => { (s.drawn 1).atkIterate r with keys := k, cnt := x.iteration s.cnt r })
          (State.attackIn_withKeys h)
      rw [State.atkLoop, State.atkLoop, hd, State.draw_of_peek (v := r) (by exact hp)]
      simp only [hi]
      exact ih (by exact h)

/-- Settles O28: `ATK` is refused with either key set, or its loop asks the same oracle. -/
theorem attackSeesOnlyTheOracle : Obligations.AttackSeesOnlyTheOracle := by
  intro s t k h he
  show exec .atk (s.withKeys k) = .next (t.withKeys k)
  have hsame : refusalOf .atk (s.withKeys k) = refusalOf .atk s := rfl
  cases hr : refusalOf .atk s with
  | some e =>
    cases (exec_of_refusalOf hr).symm.trans he
    rw [exec_of_refusalOf (hsame.trans hr), State.raise_withKeys]
  | none =>
    cases (exec_atk_of_accepted hr).2.symm.trans he
    rw [(exec_atk_of_accepted (hsame.trans hr)).2]
    exact congrArg _ (State.atkLoop_withKeys (s := s.atkClear) _ h)

/-! ### `CNTRD` (R163) -/

theorem exec_cntrd_of_results {s : State} (hcf : s.cf = false) (hav : s.av = true) (cand : Byte) :
    exec (.cntrd cand) s = .next (s.respond (s.cnt[cand.toNat]'cand.isLt)) := by
  simp [exec, execCntrd, hcf, hav]

/-- Settles O33: the response word is the counter with zeros above it (R76). -/
theorem cntrdAnswersTheCounter : Obligations.CntrdAnswersTheCounter :=
  fun _ cand hcf hav => exec_cntrd_of_results hcf hav cand

end Sys2Proof.Machine
end

section
/-!
Held commands (43_attack.md R166, R170; 70_reset_and_hazards.md R227): values that arrive during a hold are drawn as if
they had been lined up before the command began.
-/

namespace Sys2Proof.Machine

/-! ### Values lined up later (R59) -/

/-- The state with more values lined up on the RNG port, behind those that stand there. -/
def State.lineUp (s : State) (vs : List Word) : State :=
  s.setRng { s.env.rng with queue := s.env.rng.queue ++ vs }

/-- A value that stood on the port of a silent RNG is drawn before those lined up behind it. -/
theorem State.draw_lineUp {s : State} {v : Word} (hl : s.env.rng.live = false) (hp : s.env.rng.peek 0 = some v)
    (vs : List Word) : (s.lineUp vs).draw = some (v, (s.drawn 1).lineUp vs) := by
  cases hq : s.env.rng.queue with
  | nil => simp [Rng.peek, hq, hl] at hp
  | cons u us =>
    obtain rfl : u = v := by simpa [Rng.peek, hq] using hp
    simp [State.draw, Rng.draw, State.lineUp, Rng.after, hq]

/-! ### `KEYGEN` (R166) -/

/-- The loop of `KEYGEN` overwrites the FSM state without reading it. -/
theorem State.keygenLoop_fsm (n : Nat) (s : State) (f : FsmState) :
    ({ s with fsm := f } : State).keygenLoop n = s.keygenLoop n := by
  induction n generalizing s with
  | zero => rfl
  | succ n ih =>
    rcases s.draw_cases with ⟨hp, -, -⟩ | ⟨v, hp, hd⟩
    · rw [State.keygenLoop_silent hp, State.keygenLoop_silent (by exact hp)]
    · rw [State.keygenLoop, State.keygenLoop, hd, State.draw_of_peek (v := v) (by exact hp)]
      exact ih ((s.drawn 1).putKey v)

/-- A held `KEYGEN` has the keys still to load before it. -/
theorem State.keygenResume_eq {s : State} {n : Nat} (hk : s.work.kidx.toNat + n = 5) (f : FsmState) :
    ({ s with fsm := f } : State).keygenResume = s.keygenLoop n := by
  rw [State.keygenResume, State.keygenLoop_fsm, ← hk, Nat.add_sub_cancel_left]

/-- The loop of `KEYGEN` comes to its answer, or holds because the RNG is silent. -/
theorem State.keygenLoop_answers_or_holds (n : Nat) (s : State) :
    (s.keygenLoop n).fsm = .rsp ∨ (s.keygenLoop n).fsm = .kg ∧ s.env.rng.live = false := by
  rcases s.keygenLoop_cases n with ⟨vs, -, -, h⟩ | ⟨vs, -, -, hl, -, h⟩ <;> rw [h]
  · exact .inl rfl
  · exact .inr ⟨rfl, hl⟩

/-- The loop of `KEYGEN`, held, goes on as the one that had the later values from the start. -/
theorem State.keygenLoop_resumes (n : Nat) {s : State} (hl : s.env.rng.live = false) (hk : s.work.kidx.toNat + n = 5)
    (hf : (s.keygenLoop n).fsm = .kg) (vs : List Word) :
    ((s.keygenLoop n).lineUp vs).keygenResume = (s.lineUp vs).keygenLoop n := by
  induction n generalizing s with
  | zero => cases hf
  | succ n ih =>
    rcases s.draw_cases with ⟨hp, -, -⟩ | ⟨v, hp, hd⟩
    · rw [State.keygenLoop_silent hp]
      exact State.keygenResume_eq (s := s.lineUp vs) hk .kg
    · have hk' : (s.work.kidx + 1).toNat + n = 5 := by bv_omega
      simp only [State.keygenLoop, hd, State.draw_lineUp hl hp] at hf ⊢
      exact ih (s := (s.drawn 1).putKey v) hl hk' hf

/-! ### `ATK` (R170) -/

/-- The loop of `ATK` overwrites the FSM state without reading it. -/
theorem State.atkLoop_fsm (n : Nat) (s : State) (f : FsmState) :
    ({ s with fsm := f } : State).atkLoop n = s.atkLoop n := by
  induction n generalizing s with
  | zero => rfl
  | succ n ih =>
    rcases s.draw_cases with ⟨hp, -, -⟩ | ⟨r, hp, hd⟩
    · rw [State.atkLoop_silent hp, State.atkLoop_silent (by exact hp)]
    · rw [State.atkLoop, State.atkLoop, hd, State.draw_of_peek (v := r) (by exact hp)]
      exact ih ((s.drawn 1).atkIterate r)

/-- A held `ATK` has the iterations still to do before it. -/
theorem State.atkResume_eq {s : State} {n : Nat} (hit : s.work.it.toNat + n = s.iter.toNat) (f : FsmState) :
    ({ s with fsm := f } : State).atkResume = s.atkLoop n := by
  rw [State.atkResume, State.atkLoop_fsm, ← hit, Nat.add_sub_cancel_left]

/-- The loop of `ATK` comes to its answer, or holds because the RNG is silent. -/
theorem State.atkLoop_answers_or_holds (n : Nat) (s : State) :
    (s.atkLoop n).fsm = .rsp ∨ (s.atkLoop n).fsm = .draw ∧ s.env.rng.live = false := by
  rcases s.atkLoop_cases n with ⟨rs, -, -, h⟩ | ⟨rs, -, -, hl, -, h⟩ <;> rw [h]
  · exact .inl rfl
  · exact .inr ⟨rfl, hl⟩

/-- The loop of `ATK`, held, goes on as the one that had the later values from the start. -/
theorem State.atkLoop_resumes (n : Nat) {s : State} (hl : s.env.rng.live = false)
    (hit : s.work.it.toNat + n = s.iter.toNat) (hf : (s.atkLoop n).fsm = .draw) (vs : List Word) :
    ((s.atkLoop n).lineUp vs).atkResume = (s.lineUp vs).atkLoop n := by
  induction n generalizing s with
  | zero => cases hf
  | succ n ih =>
    rcases s.draw_cases with ⟨hp, -, -⟩ | ⟨r, hp, hd⟩
    · rw [State.atkLoop_silent hp]
      exact State.atkResume_eq (s := s.lineUp vs) hit .draw
    · have hit' : (s.work.it + 1).toNat + n = s.iter.toNat := by bv_omega
      simp only [State.atkLoop, hd, State.draw_lineUp hl hp] at hf ⊢
      exact ih (s := (s.drawn 1).atkIterate r) hl hit' hf

/-! ### One step -/

theorem exec_keygen_of_cf {s : State} (hcf : s.cf = false) : exec .keygen s = .next (s.keygenStart.keygenLoop 5) :=
  exec_keygen_of_accepted (by rw [refusalOf_keygen, hcf]; rfl)

theorem step_of_kg {s : State} (hr : s.env.rst = false) (hf : s.fsm = .kg) : step s = .next s.keygenResume := by
  simp [step, hr, hf]

theorem step_of_draw {s : State} (hr : s.env.rst = false) (hf : s.fsm = .draw) : step s = .next s.atkResume := by
  simp [step, hr, hf]

/-- A command leaves the level of `rst` to the host. -/
theorem exec_rst {i : Instr} {s t : State} (h : exec i s = .next t) : t.env.rst = s.env.rst := by
  obtain ⟨n, he, -⟩ := onlyKeygenAndAtkDraw i s t h
  rw [he]

/-- Settles O34: only the two loops hold, and each resumes where it stopped. -/
theorem heldCommandResumesWhereItStopped : Obligations.HeldCommandResumesWhereItStopped := by
  intro i s t vs hr hl h hf
  have hrt := (exec_rst h).trans hr
  show step (t.lineUp vs) = exec i (s.lineUp vs)
  have held : t.fsm ≠ .rsp := fun h => by simp [h] at hf
  cases exec_shape h with
  | raise _ _ | respond _ _ | srst | wrcr _ _ => exact absurd rfl held
  | keygen hc =>
    obtain ⟨hkg, -⟩ := (s.keygenStart.keygenLoop_answers_or_holds 5).resolve_left held
    rw [step_of_kg (by exact hrt) (by exact hkg), exec_keygen_of_cf (by exact hc)]
    exact congrArg _ (State.keygenLoop_resumes 5 (s := s.keygenStart) hl rfl hkg vs)
  | atk hc hk =>
    obtain ⟨hdraw, -⟩ := (s.atkClear.atkLoop_answers_or_holds s.iter.toNat).resolve_left held
    rw [step_of_draw (by exact hrt) (by exact hdraw), exec_atk_of_keys (by exact hc) (by exact hk)]
    exact congrArg _ (State.atkLoop_resumes s.iter.toNat (s := s.atkClear) hl (Nat.zero_add _) hdraw vs)

end Sys2Proof.Machine
end

section
/-!
Progress at the FSM level (43_attack.md R174, R176, R179): how long the two scans over the candidates take, and that an
accepted word is answered.
-/

namespace Sys2Proof.Machine

/-! ### The scans (R174, R176) -/

/-- The scan of `S_AMAX` before its last transition, whatever best candidate it began with. -/
theorem State.ticks_amax_visit {s : State} (hr : s.env.rst = false) (hf : s.fsm = .amax) (hc : s.work.cand = 0)
    {n : Nat} (hn : n < 256) : ∃ w : Work, w.cand = BitVec.ofNat 8 n ∧ State.ticks n s = { s with work := w } := by
  induction n with
  | zero => exact ⟨s.work, hc, rfl⟩
  | succ n ih =>
    obtain ⟨w, hw, hs⟩ := ih (by omega)
    have hmore : w.cand ≠ 255 := by rw [hw]; bv_omega
    rw [State.ticks_succ, hs, State.tick_amax (by exact hr) (by exact hf), State.tickAmax_eq rfl,
      if_neg (by exact hmore)]
    exact ⟨_, by rw [BitVec.ofNat_add, ← hw]; rfl, rfl⟩

/-- Settles O54: each visit but the last moves to the next candidate. -/
theorem candidateScansTakeExactly256Visits : Obligations.CandidateScansTakeExactly256Visits := by
  intro s hr hc
  refine ⟨fun hf => ⟨fun n hn => ?_, ?_⟩, fun hf => ⟨fun n hn => ?_, ?_⟩⟩
  · rw [State.ticks_cand hr hf hc hn]
    exact hf
  · rw [State.ticks_cand_all hr hf hc]
  · obtain ⟨w, -, hs⟩ := State.ticks_amax_visit hr hf hc hn
    rw [hs]
    exact hf
  · obtain ⟨w, hw, hs⟩ := State.ticks_amax_visit hr hf hc (show 255 < 256 by omega)
    rw [State.ticks_succ, hs, State.tick_amax (by exact hr) (by exact hf), State.tickAmax_eq rfl, if_pos (by exact hw)]

/-! ### Answers (R179) -/

/-- With a live RNG every command comes to its response. -/
theorem exec_answers {i : Instr} {s t : State} (hl : s.env.rng.live = true) (h : exec i s = .next t) :
    t.fsm = .rsp := by
  have noHold : s.env.rng.live ≠ false := by simp [hl]
  cases exec_shape h with
  | raise _ _ | respond _ _ | srst | wrcr _ _ => rfl
  | keygen _ => exact (State.keygenLoop_answers_or_holds _ _).resolve_right fun hold => noHold hold.2
  | atk _ _ => exact (State.atkLoop_answers_or_holds _ _).resolve_right fun hold => noHold hold.2

/-- With a live RNG an accepted word comes to its response, and the RNG alone has moved. -/
theorem State.runWord_answers {s t : State} {w : CmdWord} (hl : s.env.rng.live = true) (h : s.runWord w = .next t) :
    t.fsm = .rsp ∧ ∃ n, t.env = (s.drawn n).env := by
  cases hd : decode w with
  | error e =>
    cases (State.runWord_of_illegal hd s).symm.trans h
    exact ⟨rfl, 0, by rw [State.raise_env, State.drawn, Rng.after_zero, State.setRng_rng]⟩
  | ok i =>
    rw [State.runWord_of_decode hd] at h
    obtain ⟨n, he, -⟩ := onlyKeygenAndAtkDraw i s t h
    exact ⟨exec_answers hl h, n, he⟩

/-- Settles O55: the transaction level answers, and the FSM reaches what it reaches. -/
theorem acceptedCommandsAreAnswered : Obligations.AcceptedCommandsAreAnswered := by
  intro s w rest hr hf hq hl
  obtain ⟨t, ht⟩ := s.accept.runWord_total w
  obtain ⟨hrsp, k, henv⟩ := State.runWord_answers (s := s.accept) hl ht
  obtain ⟨n, hn⟩ := State.reaches_transact hr hf ((State.transact_of_word hq).trans ht)
  have hfsm : (State.ticks n s).fsm = .rsp := (congrArg State.fsm hn).trans hrsp
  have he : (State.ticks n s).env = (s.accept.drawn k).env := (congrArg State.env hn).trans henv
  refine ⟨n, hfsm, fun hy => ?_⟩
  have htick : State.ticks (n + 1) s = (State.ticks n s).handOver := by
    rw [State.ticks_succ, State.tick_rsp (by rw [he]; exact hr) hfsm, State.tickRsp, if_pos (by rw [he]; exact hy)]
  rw [htick]
  exact ⟨rfl, by rw [State.handOver_env, he]; rfl⟩

end Sys2Proof.Machine
end

section
/-!
The command without effect (44_control.md R190): its answer is the data word 0, with the response code of success above.
-/

namespace Sys2Proof.Machine

theorem exec_nop (s : State) : exec .nop s = .next (s.respond 0) := rfl

theorem okResponse_zero : okResponse 0 = 0 := by decide

/-- Settles O35: `NOP` answers the data word 0, and the code of success is 0 as well (R76). -/
theorem nopAnswersZero : Obligations.NopAnswersZero := by
  intro s
  rw [exec_nop, State.respond, okResponse_zero]

end Sys2Proof.Machine
end

section
/-!
Refusals (60_exceptions.md R211 to R219): what refusing does, that a command is refused exactly where the check sequence
of `S_IDLE` finds a cause, and which commands a configuration fault refuses.
-/

namespace Sys2Proof.Machine

/-! ### The two kinds of response words (R76, R77) -/

theorem toNat_okResponse (d : Word) : (okResponse d).toNat = d.toNat :=
  (BitVec.toNat_append 0 d).trans (by simp)

theorem toNat_refusedResponse (code : BitVec 4) : (refusedResponse code).toNat = code.toNat * 2 ^ 28 :=
  (BitVec.toNat_append code 0).trans (by simp [Nat.shiftLeft_eq])

theorem Cause.code_pos (e : Cause) : 0 < e.code.toNat := by cases e <;> decide

theorem Cause.code_injective : Function.Injective Cause.code := by
  rintro ⟨⟩ ⟨⟩ <;> decide

theorem okResponse_ne_refusedResponse (d : Word) (e : Cause) : okResponse d ≠ refusedResponse e.code := by
  intro h
  have hn : d.toNat = e.code.toNat * 2 ^ 28 := by rw [← toNat_okResponse, h, toNat_refusedResponse]
  have := d.isLt
  have := e.code_pos
  omega

/-- Refusals with different causes answer different words (R77). -/
theorem refusedResponse_code_injective : Function.Injective fun e : Cause => refusedResponse e.code := by
  intro e e' h
  have hn := congrArg BitVec.toNat h
  simp only [toNat_refusedResponse] at hn
  exact Cause.code_injective (BitVec.eq_of_toNat_eq (by omega))

/-- Settles O8: a refusal waits in `S_RSP`, and the host takes it like any other response. -/
theorem refusalSetsOneFlagAndAnswersCode : Obligations.RefusalSetsOneFlagAndAnswersCode := by
  intro s e
  refine ⟨s.raise_sticky e, toNat_refusedResponse e.code, by cases e <;> rfl, fun hr hy => ?_⟩
  obtain ⟨hstep, -⟩ := step_of_rsp (s := s.raise e) (by rw [s.raise_env, hr]) rfl
  rw [hstep, State.tickRsp, s.raise_env, if_pos hy, State.handOver, s.raise_env]

/-! ### Accepted commands -/

/-- The check sequence finds no cause where none of the four conditions holds (R219). -/
theorem refusalOf_eq_none_iff {i : Instr} {s : State} : refusalOf i s = none ↔
    (s.cf = true → worksUnderFault i = true) ∧ (i = .lastkey → s.cfg.diagEn = true) ∧
      argError i = false ∧ uninitError i s = false := by
  simp [refusalOf, ite_eq_iff]

/-- The response of a block that has one is the answer of success, with data. -/
def State.AnswersData (s : State) : Prop := s.fsm = .rsp → ∃ d, s.rspreg = okResponse d

theorem State.answersData_respond (s : State) (d : Word) : (s.respond d).AnswersData := fun _ => ⟨d, rfl⟩

/-- The loop of `KEYGEN` answers 0 or holds. -/
theorem State.answersData_keygenLoop (n : Nat) (s : State) : (s.keygenLoop n).AnswersData := by
  rcases State.keygenLoop_cases n s with ⟨vs, -, -, h⟩ | ⟨vs, -, -, -, -, h⟩ <;> rw [h]
  · exact State.answersData_respond _ 0
  · exact nofun

/-- The loop of `ATK` answers the arg-max or holds. -/
theorem State.answersData_atkLoop (n : Nat) (s : State) : (s.atkLoop n).AnswersData := by
  rcases State.atkLoop_cases n s with ⟨rs, -, -, h⟩ | ⟨rs, -, -, -, -, h⟩ <;> rw [h]
  · exact State.answersData_respond _ _
  · exact nofun

/-- A command for which the check sequence finds no cause is not refused (R219). -/
theorem answersData_of_accepted {i : Instr} {s t : State} (hn : refusalOf i s = none) (h : exec i s = .next t) :
    t.AnswersData := by
  obtain ⟨hfault, hdiag, harg, huninit⟩ := refusalOf_eq_none_iff.1 hn
  have hcf (hw : worksUnderFault i = false) : s.cf = false := by simpa [hw] using hfault
  have responds {u : State} {d : Word} (hx : exec i s = .next (u.respond d)) : t.AnswersData := by
    cases hx.symm.trans h
    exact u.answersData_respond d
  cases i with
  | nop | srst => exact responds rfl
  | rdcr reg =>
    rw [argError_rdcr, Option.isNone_eq_false_iff, Option.isSome_iff_exists] at harg
    obtain ⟨r, hr⟩ := harg
    obtain rfl := crOfIndex_eq_some.1 hr
    rw [uninitError_rdcr, hr] at huninit
    exact responds (exec_rdcr s r (by simpa using huninit))
  | wrcr reg v =>
    rw [argError_wrcr s, Option.isNone_eq_false_iff, Option.isSome_iff_exists] at harg
    obtain ⟨u, hu⟩ := harg
    obtain ⟨r, hr, hw⟩ := Option.bind_eq_some_iff.1 hu
    obtain rfl := crOfIndex_eq_some.1 hr
    exact responds (exec_wrcr (hcf rfl) hw)
  | sub | isub | perm | iperm | ddtrd =>
    exact responds (congrArg Host.Outcome.next (State.answerTable_of_cf (hcf rfl) _))
  | keygen =>
    cases (exec_keygen_of_accepted hn).symm.trans h
    exact State.answersData_keygenLoop 5 _
  | atk =>
    cases (exec_atk_of_accepted hn).2.symm.trans h
    exact State.answersData_atkLoop _ _
  | enc w => exact responds (exec_enc_of_keys (hcf rfl) ((Bool.not_eq_false' _).mp huninit) w)
  | dec w => exact responds (exec_dec_of_keys (hcf rfl) ((Bool.not_eq_false' _).mp huninit) w)
  | lastkey => exact responds (exec_lastkey_of_keys (hcf rfl) (hdiag rfl) ((Bool.not_eq_false' _).mp huninit))
  | cntrd c => exact responds (exec_cntrd_of_results (hcf rfl) ((Bool.not_eq_false' _).mp huninit) c)

/-- A command other than `SRST` that is not refused leaves every sticky flag as it is (R35). -/
theorem sticky_of_accepted {i : Instr} {s t : State} (hn : refusalOf i s = none) (hs : i ≠ .srst)
    (h : exec i s = .next t) (e : Cause) : t.sticky e = s.sticky e := by
  cases exec_shape h with
  | raise _ e' =>
    obtain ⟨d, hd⟩ := answersData_of_accepted hn h rfl
    exact absurd hd.symm (okResponse_ne_refusedResponse d e')
  | respond _ d => exact sticky_congr rfl rfl rfl rfl rfl e
  | srst => exact absurd rfl hs
  | wrcr _ hw =>
    rw [State.writeCr_frame hw]
    exact sticky_congr rfl rfl rfl rfl rfl e
  | keygen _ =>
    rw [State.keygenLoop_frame]
    exact sticky_congr rfl rfl rfl rfl rfl e
  | atk _ _ =>
    rw [State.atkLoop_frame]
    exact sticky_congr rfl rfl rfl rfl rfl e

/-- Settles O9: each command checks in the order of `refusalOf`, and an accepted one raises nothing. -/
theorem refusalsFollowThePriority : Obligations.RefusalsFollowThePriority := by
  refine fun s w => ⟨fun x hd => State.runWord_of_illegal hd s, fun i hd => ?_, s.raise_sticky⟩
  rw [State.runWord_of_decode hd]
  refine ⟨fun e he => exec_of_refusalOf he, fun hn hs => ?_⟩
  obtain ⟨t, ht⟩ := exec_total i s
  exact ⟨t, ht, sticky_of_accepted hn hs ht⟩

/-! ### Configuration fault (R213) -/

theorem worksUnderFault_iff {i : Instr} :
    worksUnderFault i = true ↔ i = .nop ∨ i = .srst ∨ ∃ reg, i = .rdcr reg := by
  cases i <;> simp [worksUnderFault]

theorem refusedResponse_cfg : refusedResponse Cause.cfg.code = 0x20000000 := by decide

/-- Of the four checks of the sequence only the first finds `E_CFG`. -/
theorem fault_of_refusalOf {i : Instr} {s : State} (h : refusalOf i s = some .cfg) :
    s.cf = true ∧ worksUnderFault i = false := by
  simpa [refusalOf, ite_eq_iff] using h

/-- Without a fault, and for the commands that work under one, code 2 is never answered. -/
theorem answer_ne_cfg_of_no_fault {i : Instr} {s t : State} (hi : s.cf = false ∨ worksUnderFault i = true)
    (h : exec i s = .next t) (hf : t.fsm = .rsp) : t.rspreg ≠ refusedResponse Cause.cfg.code := by
  cases hr : refusalOf i s with
  | some e =>
    cases (exec_of_refusalOf hr).symm.trans h
    intro hcode
    obtain rfl : e = .cfg := refusedResponse_code_injective hcode
    obtain ⟨hcf, hw⟩ := fault_of_refusalOf hr
    simp [hcf, hw] at hi
  | none =>
    obtain ⟨d, hd⟩ := answersData_of_accepted hr h hf
    rw [hd]
    exact okResponse_ne_refusedResponse d .cfg

/-- Settles O12: the first check of the sequence, and the only one that answers code 2. -/
theorem faultRefusesEveryOtherCommand : Obligations.FaultRefusesEveryOtherCommand := by
  intro i s
  refine ⟨fun hcf hnop hsrst hrdcr => ?_, fun hi t h hf => ?_⟩
  · have hw : worksUnderFault i = false := by
      rw [← Bool.not_eq_true, worksUnderFault_iff]
      rintro (h | h | ⟨reg, h⟩)
      exacts [hnop h, hsrst h, hrdcr reg h]
    refine ⟨s.raise .cfg, exec_of_fault hcf hw, by rw [← refusedResponse_cfg]; rfl, ?_⟩
    simp [State.getLsbD_statusWord]
  · rw [← refusedResponse_cfg]
    exact answer_ne_cfg_of_no_fault (hi.imp_right worksUnderFault_iff.2) h hf

end Sys2Proof.Machine
end

section
/-!
Hard reset (70_reset_and_hazards.md R240, R243, R245): what a block does while `rst` is 1, at both levels and on the
pins, whatever its FSM state.
-/

namespace Sys2Proof.Machine

section
variable {s : State} (hr : s.env.rst = true)
include hr

theorem State.tick_of_rst : s.tick = s.toReset := if_pos hr

theorem step_of_rst : step s = .next s.toReset := if_pos hr

theorem State.cmdReady_of_rst : s.outputs.cmdReady = false := by simp [State.outputs, hr]

theorem State.rspValid_of_rst : s.outputs.rspValid = false := by simp [State.outputs, hr]

theorem State.rngReady_of_rst : s.outputs.rngReady = false := by simp [State.outputs, hr]

end

/-- Settles O57: both levels test `rst` before the FSM state, and it masks every handshake output. -/
theorem hardResetOverridesEverything : Obligations.HardResetOverridesEverything := fun s hr =>
  ⟨step_of_rst hr, State.tick_of_rst hr, State.cmdReady_of_rst hr, State.rspValid_of_rst hr, State.rngReady_of_rst hr,
    s.outputs_cfgFault⟩

end Sys2Proof.Machine
end
